-- ==== Sys2Proof/Word.lean ====
section
/-! DEFINITION. The two word types of the block: a 32-bit register or bus word and an 8-bit data byte
(00_scope.md R6, R7: REG_BITS = 32, bit 0 is the least significant bit, every value is unsigned). -/

namespace Sys2Proof

/-- A register of the block, the write data, the read data or a command word (00_scope.md R6). -/
abbrev Word := BitVec 32

/-- One data byte (30_encoding.md R83). -/
abbrev Byte := BitVec 8

end Sys2Proof
end

