-- ==== Sys2Proof/Syntax.lean ====
section
/-! DEFINITION. The command set: one constructor for each row of spec/opcode_table.json (30_encoding.md R82, R87). -/

namespace Sys2Proof

/-- The five commands, with the operand fields of 30_encoding.md R81 that each of them has. -/
inductive Instr where
  /-- NOP (41_commands.md R141). -/
  | nop
  /-- START with its WSEL field (41_commands.md R142, 30_encoding.md R84). -/
  | start (wsel : BitVec 2)
  /-- PUSH with its DATA field (41_commands.md R144, 30_encoding.md R83). -/
  | push (data : Byte)
  /-- FINAL (41_commands.md R146). -/
  | final
  /-- CLEAR (41_commands.md R150). -/
  | clear
deriving DecidableEq, Repr

end Sys2Proof
end

