-- ==== Sys2Proof/WellFormed.lean ====
section
/-! DEFINITION. The one check on an instruction's operands: WSEL of START is 0, 1 or 2 (30_encoding.md R84, R87). Every
byte is a legal operand of PUSH (30_encoding.md R83), and the other commands have no operand. -/

namespace Sys2Proof

/-- The instruction is one that a legal word encodes (30_encoding.md R87, column "legal words"). -/
def Instr.wellFormed : Instr → Bool
  | .nop => true
  | .start wsel => wsel != 3
  | .push _ => true
  | .final => true
  | .clear => true

end Sys2Proof
end

