-- ==== Sys2Proof/Decode.lean ====
section
/-! DEFINITION. The decoder, total on every 32-bit word and rejecting by name (30_encoding.md R86, R88), and the encoder
(30_encoding.md R81, R87). A command is one word, so there is no length to decode and no byte order (R80, 20_memory.md R60). -/

namespace Sys2Proof

/-- What a command word is: exactly one of these (30_encoding.md R86, R88). -/
inductive CommandClass where
  /-- The word selects a row of the opcode map (R87). -/
  | legal (i : Instr)
  /-- ILLEGAL_OPCODE (R88; 60_exceptions.md R182). -/
  | illegalOpcode
  /-- ILLEGAL_WIDTH: a START with WSEL = 3 and nothing else set (R88; 60_exceptions.md R183). -/
  | illegalWidth
deriving DecidableEq, Repr

/-- OP = v[31:28] (30_encoding.md R81). -/
def opField (v : Word) : BitVec 4 := v.extractLsb' 28 4

/-- RSV = v[27:10] (30_encoding.md R81, R85). -/
def rsvField (v : Word) : BitVec 18 := v.extractLsb' 10 18

/-- WSEL = v[9:8] (30_encoding.md R84). -/
def wselField (v : Word) : BitVec 2 := v.extractLsb' 8 2

/-- DATA = v[7:0] (30_encoding.md R83). -/
def dataField (v : Word) : Byte := v.extractLsb' 0 8

/-- rest = v[27:0] (30_encoding.md R86). -/
def restField (v : Word) : BitVec 28 := v.extractLsb' 0 28

/-- v[27:8], which PUSH requires to be 0 (30_encoding.md R86). -/
def aboveDataField (v : Word) : BitVec 20 := v.extractLsb' 8 20

/-- The decoder, check by check in the order of 30_encoding.md R86. -/
def decode (v : Word) : CommandClass :=
  if opField v = 0x0 then
    if restField v = 0 then .legal .nop else .illegalOpcode
  else if opField v = 0x1 then
    if rsvField v ≠ 0 ∨ dataField v ≠ 0 then .illegalOpcode
    else if wselField v = 3 then .illegalWidth
    else .legal (.start (wselField v))
  else if opField v = 0x2 then
    if aboveDataField v = 0 then .legal (.push (dataField v)) else .illegalOpcode
  else if opField v = 0x3 then
    if restField v = 0 then .legal .final else .illegalOpcode
  else if opField v = 0x4 then
    if restField v = 0 then .legal .clear else .illegalOpcode
  else .illegalOpcode

/-- A word of format C with RSV = 0 (30_encoding.md R81, R85). -/
def formatC (op : BitVec 4) (wsel : BitVec 2) (data : Byte) : Word :=
  op ++ (0 : BitVec 18) ++ wsel ++ data

/-- OP of each command (30_encoding.md R82). -/
def Instr.op : Instr → BitVec 4
  | .nop => 0x0
  | .start _ => 0x1
  | .push _ => 0x2
  | .final => 0x3
  | .clear => 0x4

/-- The word of an instruction: fields that it does not have are 0 (30_encoding.md R81, R82, R87). -/
def encode (i : Instr) : Word :=
  match i with
  | .nop => formatC i.op 0 0
  | .start wsel => formatC i.op wsel 0
  | .push data => formatC i.op 0 data
  | .final => formatC i.op 0 0
  | .clear => formatC i.op 0 0

/-- The command word that the host numbers as `w`, of which the table gives `nbits` bits and every higher bit is 0;
none where that is no 32-bit word (30_encoding.md R80: one command length). -/
def tableWord (nbits w : Nat) : Option Word :=
  let v := w % 2 ^ nbits
  if v < 2 ^ 32 then some (BitVec.ofNat 32 v) else none

/-- The instruction that `decode` reads from the word the host numbers as `w`; none where it refuses. -/
def decodeTableWord (nbits w : Nat) : Option Instr :=
  match tableWord nbits w with
  | none => none
  | some v =>
    match decode v with
    | .legal i => some i
    | .illegalOpcode => none
    | .illegalWidth => none

end Sys2Proof
end

