-- ==== Sys2Proof/Config.lean ====
section
/-! DEFINITION. The parameters of 00_scope.md R6 and the free values. What the spec fixes has its value here; what it
leaves OPEN is a constant without a body, so that no proof can lean on a choice of ours. -/

namespace Sys2Proof.Config

/-- PAD_BYTE, the character 'X' (40_datapath.md R100). -/
def padByte : Byte := 0x58

/-- How far MAX_LEN lies above its least legal value: OPEN (00_scope.md R6, decision D12; log entry 1). -/
opaque maxLenAbove : Nat

/-- MAX_LEN: any value with 1023 ≤ MAX_LEN ≤ 2^32 − 4, and no other (00_scope.md R6; log entry 1). Every legal value is
this one for some `maxLenAbove`. -/
def maxLen : Word :=
  BitVec.ofFin ⟨min maxLenAbove (2 ^ 32 - 4 - 1023) + 1023, by omega⟩

/-- Cycles that T_CMD takes beyond the first: OPEN (70_reset_and_hazards.md R218; log entry 2). -/
opaque cmdExtraCycles : Nat

/-- Cycles that T_READ takes beyond the first: OPEN (70_reset_and_hazards.md R218; log entry 2). -/
opaque readExtraCycles : Nat

/-- Cycles that T_FINAL takes beyond the first: OPEN, and it may depend on PADCNT (70_reset_and_hazards.md R218; log entry 2). -/
opaque finalExtraCycles : BitVec 2 → Nat

/-- T_CMD ≥ 1: NOP, START, PUSH, CLEAR and illegal commands (70_reset_and_hazards.md R218). -/
def tCmd : Nat := cmdExtraCycles + 1

/-- T_READ ≥ 1: reads and bus errors (70_reset_and_hazards.md R218). -/
def tRead : Nat := readExtraCycles + 1

/-- T_FINAL ≥ 1, after a FINAL that leaves PADCNT at `p` (70_reset_and_hazards.md R218). -/
def tFinal (p : BitVec 2) : Nat := finalExtraCycles p + 1

/-- BASE: where the platform puts the register window in the host's address space, OPEN (20_memory.md R63; log entry 3). -/
opaque base : Nat

/-- Free value: `resp_err` in a cycle in which `resp_valid` is 0 (log entry 4). -/
opaque freeErr : Nat → Bool

/-- Free value: `resp_rdata` in a cycle in which `resp_valid` is 0 (log entry 4). -/
opaque freeRdata : Nat → Word

/-- Free value: `req_ready` before the first reset (70_reset_and_hazards.md R213; log entry 4). -/
opaque freeReady : Nat → Bool

/-- Free value: `resp_valid` before the first reset (70_reset_and_hazards.md R213; log entry 4). -/
opaque freeValid : Nat → Bool

end Sys2Proof.Config
end

