-- ==== Sys2Proof/Machine/State.lean ====
section
/-! DEFINITION. The state of the machine as plain data: the registers of 10_state.md (R23 to R32), the host port
(20_memory.md R51 to R53), and the host's pin samples that are still to come. The block has no memory (20_memory.md R50). -/

namespace Sys2Proof.Machine

/-- STATE, the control state of the block (10_state.md R23). -/
inductive CtrlState where
  /-- 0: no computation in progress. -/
  | idle
  /-- 1: a computation is in progress. -/
  | active
  /-- 2: FINAL has completed the computation. -/
  | done
  /-- 3: a command was rejected. -/
  | error
deriving DecidableEq, Repr

/-- WIDTH, the checksum width; the fourth WSEL code is never held (10_state.md R24). -/
inductive Width where
  | w8
  | w16
  | w32
deriving DecidableEq, Repr

/-- ECODE; the codes 5 to 7 are never produced (10_state.md R31, 60_exceptions.md R181). -/
inductive ErrorCode where
  /-- 0: no error. -/
  | noError
  /-- 1: the word decodes as ILLEGAL_OPCODE. -/
  | illegalOpcode
  /-- 2: START with WSEL = 3. -/
  | illegalWidth
  /-- 3: PUSH or FINAL outside a computation. -/
  | sequence
  /-- 4: PUSH after MAX_LEN data bytes. -/
  | lengthOverflow
deriving DecidableEq, Repr

/-- The registers of the block, under the spec's names (10_state.md R23 to R32). STATUS is assembled on each read (R33)
and CMD has no storage (20_memory.md R55), so neither is a field. -/
structure Regs where
  /-- STATE (R23). -/
  state : CtrlState
  /-- WIDTH (R24). -/
  width : Width
  /-- LANE (R25). -/
  lane : BitVec 2
  /-- PADCNT (R26). -/
  padcnt : BitVec 2
  /-- ECODE (R31). -/
  ecode : ErrorCode
  /-- RESULT (R27). -/
  result : Word
  /-- COUNT (R28). -/
  count : Word
  /-- ACC (R29). -/
  acc : Word
  /-- WBUF (R30). -/
  wbuf : Word
  /-- MAXLEN (R32): reads as the parameter MAX_LEN; nothing writes it. -/
  maxlen : Word
deriving DecidableEq, Repr

/-- The reset values of a block whose MAX_LEN is `maxlen` (10_state.md R38). -/
def Regs.reset (maxlen : Word) : Regs where
  state := .idle
  width := .w8
  lane := 0
  padcnt := 0
  ecode := .noError
  result := 0
  count := 0
  acc := 0
  wbuf := 0
  maxlen := maxlen

/-- A request on the host port: direction, byte offset, write data (20_memory.md R51). -/
structure Request where
  write : Bool
  addr : BitVec 8
  wdata : Word
deriving DecidableEq, Repr

/-- A response: `resp_err` and `resp_rdata` (20_memory.md R51). -/
structure Response where
  err : Bool
  rdata : Word
deriving DecidableEq, Repr

/-- The input pins as one rising edge of `clk` samples them (20_memory.md R51). -/
structure Pins where
  rstN : Bool
  reqValid : Bool
  reqWrite : Bool
  reqAddr : BitVec 8
  reqWdata : Word
deriving DecidableEq, Repr

/-- Where the port stands in its protocol (20_memory.md R52, R53; 70_reset_and_hazards.md R210, R212, R213). -/
inductive Port where
  /-- No reset edge has come since power-on (R213). -/
  | unreset
  /-- The last edge was a reset edge: `req_ready` = 0 (R210). -/
  | inReset
  /-- `req_ready` = 1: the next edge can transfer a request (R52). -/
  | ready
  /-- A request has been transferred; its response is given after `left` more cycles (R52, R53). -/
  | busy (left : Nat) (resp : Response)
  /-- `resp_valid` = 1 in this one cycle (R53). -/
  | responding (resp : Response)
deriving DecidableEq, Repr

/-- The whole machine. `pins` and `freeIndex` are the model's own (log entries 5 and 4). -/
structure State where
  /-- The registers of the block (10_state.md). -/
  regs : Regs
  /-- The host port's protocol state (20_memory.md). -/
  port : Port
  /-- What the host drives on the input pins at the next edges, the next edge first (log entry 5). -/
  pins : List Pins
  /-- Index of the next free value; every edge advances it (log entry 4). -/
  freeIndex : Nat
deriving DecidableEq, Repr

/-- Nothing raises a fault: the block is total, every request gets a response, and nothing in it is stuck
(70_reset_and_hazards.md R219, 93_implementation_defined.md section 2). Command errors and bus errors are not faults of
the machine: they are next states (60_exceptions.md R180, R188). -/
inductive Fault where
deriving DecidableEq, Repr

/-- Why the model gives a step no meaning. -/
inductive Refusal where
  /-- Raised by an arm of `exec` that has no meaning yet; no arm does. Safe. -/
  | notModelled (mnemonic : String)
  /-- Raised by `clockEdge` alone, at an edge with `rst_n` = 1 before the first reset edge: the spec gives a run that begins
  without a reset no meaning (70_reset_and_hazards.md R213, 93_implementation_defined.md I8; log entry 6). Safe. -/
  | beforeFirstReset
deriving DecidableEq, Repr

/-- The machine right after a reset edge: the reset values of 10_state.md R38, the port in reset (70_reset_and_hazards.md
R210), and a host that has not driven anything yet. -/
def State.reset : State where
  regs := Regs.reset Config.maxLen
  port := .inReset
  pins := []
  freeIndex := 0

end Sys2Proof.Machine
end

