-- ==== Sys2Proof/Machine/Operands.lean ====
section
/-! DEFINITION. The operand forms: WSEL of START (30_encoding.md R84) and DATA of PUSH (30_encoding.md R83), and the
quantities a width fixes (00_scope.md R6, R8). -/

namespace Sys2Proof.Machine

/-- The width a WSEL field selects; none for the reserved code 3 (30_encoding.md R84). -/
def Width.ofWsel (wsel : BitVec 2) : Option Width :=
  if wsel = 0 then some .w8
  else if wsel = 1 then some .w16
  else if wsel = 2 then some .w32
  else none

/-- The WSEL code of a width (30_encoding.md R84). -/
def Width.wsel : Width → BitVec 2
  | .w8 => 0
  | .w16 => 1
  | .w32 => 2

/-- W, the width in bits (30_encoding.md R84). -/
def Width.bits : Width → Nat
  | .w8 => 8
  | .w16 => 16
  | .w32 => 32

/-- L(W), the bytes of a word (00_scope.md R6). -/
def Width.lanes : Width → Nat
  | .w8 => 1
  | .w16 => 2
  | .w32 => 4

/-- mask(W) = 2^W − 1 as a register value (00_scope.md R8, 30_encoding.md R84). -/
def Width.mask : Width → Word
  | .w8 => 0xFF
  | .w16 => 0xFFFF
  | .w32 => 0xFFFFFFFF

/-- zext_32(b): a data byte enters the assembler zero-extended (30_encoding.md R83, 00_scope.md R8). -/
def zext32 (b : Byte) : Word := b.setWidth 32

end Sys2Proof.Machine
end

