-- ==== Sys2Proof/Machine/Flags.lean ====
section
/-! DEFINITION. STATUS, the only status the block has (10_state.md R33, R36): the code of each field and the word that a
read assembles. -/

namespace Sys2Proof.Machine

/-- The code of STATE (10_state.md R23). -/
def CtrlState.code : CtrlState → BitVec 2
  | .idle => 0
  | .active => 1
  | .done => 2
  | .error => 3

/-- The code of ECODE (60_exceptions.md R181). -/
def ErrorCode.code : ErrorCode → BitVec 3
  | .noError => 0
  | .illegalOpcode => 1
  | .illegalWidth => 2
  | .sequence => 3
  | .lengthOverflow => 4

/-- STATUS = STATE | (WIDTH << 2) | (LANE << 4) | (PADCNT << 6) | (ECODE << 8) (10_state.md R33). -/
def Regs.status (r : Regs) : Word :=
  r.state.code.setWidth 32
    ||| (r.width.wsel.setWidth 32 <<< 2)
    ||| (r.lane.setWidth 32 <<< 4)
    ||| (r.padcnt.setWidth 32 <<< 6)
    ||| (r.ecode.code.setWidth 32 <<< 8)

end Sys2Proof.Machine
end

