-- ==== Sys2Proof/Machine/Ops.lean ====
section
/-! DEFINITION. The shared operations on the registers: entering ERROR and the two ways out of it (60_exceptions.md R180,
R190; 41_commands.md R143, R150), the word assembler (40_datapath.md R107), the padding controller (R117), and the
latching of RESULT (41_commands.md R147). -/

namespace Sys2Proof.Machine

/-! ### Entry into ERROR and exit from it -/

/-- `raise Error(code)`: the first error is kept; otherwise STATE and ECODE are written and nothing else is
(60_exceptions.md R180). Nothing is saved and nothing jumps (R189). -/
def Regs.raiseError (code : ErrorCode) (r : Regs) : Regs :=
  match r.state with
  | .error => r
  | .idle => { r with state := .error, ecode := code }
  | .active => { r with state := .error, ecode := code }
  | .done => { r with state := .error, ecode := code }

/-- `init(ws)`: every register is written; MAXLEN is a constant (41_commands.md R143, 10_state.md R32). From ERROR this is
the exit to ACTIVE (60_exceptions.md R190). -/
def Regs.init (w : Width) (r : Regs) : Regs where
  state := .active
  width := w
  lane := 0
  padcnt := 0
  ecode := .noError
  result := 0
  count := 0
  acc := 0
  wbuf := 0
  maxlen := r.maxlen

/-- `clear()`: every field takes its reset value; MAXLEN is a constant (41_commands.md R150, 10_state.md R38). From ERROR
this is the exit to IDLE (60_exceptions.md R190). -/
def Regs.clear (r : Regs) : Regs := Regs.reset r.maxlen

/-! ### The datapath -/

/-- Where the next byte goes in the word: 8 · (L − 1 − LANE) (40_datapath.md R107; log entry 8 for LANE ≥ L). -/
def Regs.shift (r : Regs) : Nat := 8 * (r.width.lanes - 1 - r.lane.toNat)

/-- The word with the byte `b` put in its place: WBUF | (zext_32(b) << shift) (40_datapath.md R107). -/
def Regs.wordWith (b : Byte) (r : Regs) : Word := r.wbuf ||| (zext32 b <<< r.shift)

/-- `assemble(b)` (40_datapath.md R107). The sum is mod 2^32: a carry out of bit 31 is dropped (R115). -/
def Regs.assemble (b : Byte) (r : Regs) : Regs :=
  if r.lane.toNat = r.width.lanes - 1 then
    { r with count := r.count + 1, acc := r.acc + r.wordWith b, wbuf := 0, lane := 0 }
  else
    { r with count := r.count + 1, wbuf := r.wordWith b, lane := r.lane + 1 }

/-- The padding loop with at most `fuel` rounds: while LANE ≠ 0, assemble PAD_BYTE and count it in `p`
(40_datapath.md R117). -/
def Regs.padLoop : Nat → BitVec 2 → Regs → Regs
  | 0, p, r => { r with padcnt := p }
  | fuel + 1, p, r =>
    if r.lane = 0 then { r with padcnt := p }
    else Regs.padLoop fuel (p + 1) (r.assemble Config.padByte)

/-- `pad()`: the loop "always ends within 3 iterations" (40_datapath.md R117), so 3 rounds are all of it. -/
def Regs.pad (r : Regs) : Regs := r.padLoop 3 0

/-- RESULT <- zext_32(ACC & mask(W)); STATE <- DONE (41_commands.md R146, R147). -/
def Regs.latchResult (r : Regs) : Regs :=
  { r with result := r.acc &&& r.width.mask, state := .done }

/-! ### Registers in the machine's state -/

/-- The machine after an operation on its registers; the port, the pins and the free values are as before. -/
def State.mapRegs (f : Regs → Regs) (s : State) : State := { s with regs := f s.regs }

/-- The machine after `raise Error(code)` (60_exceptions.md R180). -/
def State.raiseError (code : ErrorCode) (s : State) : State := s.mapRegs (Regs.raiseError code)

end Sys2Proof.Machine
end

