-- ==== Sys2Proof/Machine/Completion.lean ====
section
/-! DEFINITION. The completion command FINAL (41_commands.md section 4). -/

namespace Sys2Proof.Machine

/-- FINAL, its checks in the order of 41_commands.md R146: ignored in ERROR (60_exceptions.md R187), SEQUENCE outside a
computation (R184), and otherwise the last word is padded and RESULT is latched (R147). There is no length check. -/
def execFinal (s : State) : Host.Outcome State Fault Refusal :=
  match s.regs.state with
  | .error => .next s
  | .idle => .next (s.raiseError .sequence)
  | .done => .next (s.raiseError .sequence)
  | .active => .next (s.mapRegs fun r => r.pad.latchResult)

end Sys2Proof.Machine
end

