-- ==== Sys2Proof/Machine/Control.lean ====
section
/-! DEFINITION. The control commands NOP, START and CLEAR (41_commands.md sections 2 and 5). Each is accepted in every
state. -/

namespace Sys2Proof.Machine

/-- NOP has no effect in every state, ERROR included (41_commands.md R141). -/
def execNop (s : State) : Host.Outcome State Fault Refusal := .next s

/-- START begins a computation in every state (41_commands.md R142, R143). The code 3 has no width: no decoded START holds
it, and the model gives it what the spec gives the word that would carry it, ILLEGAL_WIDTH (60_exceptions.md R183; log
entry 7). -/
def execStart (wsel : BitVec 2) (s : State) : Host.Outcome State Fault Refusal :=
  match Width.ofWsel wsel with
  | some w => .next (s.mapRegs (Regs.init w))
  | none => .next (s.raiseError .illegalWidth)

/-- CLEAR returns the registers to their reset values in every state (41_commands.md R150). -/
def execClear (s : State) : Host.Outcome State Fault Refusal := .next (s.mapRegs Regs.clear)

end Sys2Proof.Machine
end

