-- ==== Sys2Proof/Machine/Data.lean ====
section
/-! DEFINITION. The data command PUSH (41_commands.md section 3). -/

namespace Sys2Proof.Machine

/-- PUSH, its checks in the order of 41_commands.md R144: ignored in ERROR (60_exceptions.md R187), SEQUENCE outside a
computation (R184), LENGTH_OVERFLOW once MAX_LEN bytes are in (R185), and otherwise the byte is assembled. -/
def execPush (b : Byte) (s : State) : Host.Outcome State Fault Refusal :=
  match s.regs.state with
  | .error => .next s
  | .idle => .next (s.raiseError .sequence)
  | .done => .next (s.raiseError .sequence)
  | .active =>
    if s.regs.maxlen.toNat ≤ s.regs.count.toNat then .next (s.raiseError .lengthOverflow)
    else .next (s.mapRegs (Regs.assemble b))

end Sys2Proof.Machine
end

