-- ==== Sys2Proof/Machine/Window.lean ====
section
/-! DEFINITION. The register window (20_memory.md R50, R54 to R57): which register an offset names, who may access it how,
and what a read returns. -/

namespace Sys2Proof.Machine

/-- The registers of the window (20_memory.md R55). -/
inductive RegName where
  | cmd
  | status
  | result
  | count
  | acc
  | wbuf
  | maxlen
deriving DecidableEq, Repr

/-- The offset of each register (20_memory.md R55). -/
def RegName.offset : RegName → BitVec 8
  | .cmd => 0x00
  | .status => 0x04
  | .result => 0x08
  | .count => 0x0C
  | .acc => 0x10
  | .wbuf => 0x14
  | .maxlen => 0x18

/-- The register at an offset; none where the offset is misaligned (20_memory.md R54) or unmapped (R55). -/
def RegName.ofOffset (addr : BitVec 8) : Option RegName :=
  if addr.extractLsb' 0 2 ≠ 0 then none
  else if addr = 0x00 then some .cmd
  else if addr = 0x04 then some .status
  else if addr = 0x08 then some .result
  else if addr = 0x0C then some .count
  else if addr = 0x10 then some .acc
  else if addr = 0x14 then some .wbuf
  else if addr = 0x18 then some .maxlen
  else none

/-- The 32-bit value a read of a register returns; none for CMD, which has access W only (20_memory.md R55, R56). -/
def Regs.read (r : Regs) : RegName → Option Word
  | .cmd => none
  | .status => some r.status
  | .result => some r.result
  | .count => some r.count
  | .acc => some r.acc
  | .wbuf => some r.wbuf
  | .maxlen => some r.maxlen

/-- A bus error: `resp_err` = 1 and `resp_rdata` = 0 (20_memory.md R57). -/
def Response.busError : Response := ⟨true, 0⟩

/-- The response to every write of CMD (20_memory.md R58). -/
def Response.ack : Response := ⟨false, 0⟩

/-- The host address of an offset: the platform puts the window at BASE (20_memory.md R63; log entry 3). -/
def hostAddress (addr : BitVec 8) : Nat := Config.base + addr.toNat

end Sys2Proof.Machine
end

