-- ==== Sys2Proof/Machine/Port.lean ====
section
/-! DEFINITION. The host port: what a command word and a request do (20_memory.md R56 to R58, 41_commands.md R140), and what
one rising edge of `clk` does (20_memory.md R52, R53; 70_reset_and_hazards.md section 1). -/

namespace Sys2Proof.Machine

/-! ### One request -/

/-- `execute(v)`: a legal word runs its command, an illegal one raises its error (41_commands.md R140; 60_exceptions.md
R182, R183). -/
def execWord (v : Word) (s : State) : Host.Outcome State Fault Refusal :=
  match decode v with
  | .legal i => exec i s
  | .illegalOpcode => .next (s.raiseError .illegalOpcode)
  | .illegalWidth => .next (s.raiseError .illegalWidth)

/-- A request's whole effect and its response, as one indivisible step (20_memory.md R53). A write executes only at CMD
(R58), a read returns a register with access R (R56), and everything else is a bus error, which changes nothing (R57). -/
def perform (req : Request) (s : State) : Host.Outcome (State × Response) Fault Refusal :=
  match RegName.ofOffset req.addr with
  | none => .next (s, Response.busError)
  | some name =>
    if req.write then
      match name with
      | .cmd =>
        match execWord req.wdata s with
        | .next t => .next (t, Response.ack)
        | .fault f => .fault f
        | .refused q => .refused q
      | .status => .next (s, Response.busError)
      | .result => .next (s, Response.busError)
      | .count => .next (s, Response.busError)
      | .acc => .next (s, Response.busError)
      | .wbuf => .next (s, Response.busError)
      | .maxlen => .next (s, Response.busError)
    else
      match s.regs.read name with
      | some v => .next (s, ⟨false, v⟩)
      | none => .next (s, Response.busError)

/-- Cycles from the transfer of a CMD write to its response; only FINAL has a latency of its own (70_reset_and_hazards.md
R218). `p` is PADCNT after the command. -/
def commandLatency (v : Word) (p : BitVec 2) : Nat :=
  match decode v with
  | .legal .nop => Config.tCmd
  | .legal (.start _) => Config.tCmd
  | .legal (.push _) => Config.tCmd
  | .legal .final => Config.tFinal p
  | .legal .clear => Config.tCmd
  | .illegalOpcode => Config.tCmd
  | .illegalWidth => Config.tCmd

/-- Cycles from a request's transfer to its response: T_CMD, T_FINAL or T_READ; a bus error takes T_READ
(70_reset_and_hazards.md R218). -/
def Request.latency (req : Request) (p : BitVec 2) : Nat :=
  if req.write = true ∧ req.addr = RegName.cmd.offset then commandLatency req.wdata p else Config.tRead

/-! ### One clock edge -/

/-- Pins of a host that holds `rst_n` at 1 and presents nothing (log entry 5). -/
def Pins.quiet : Pins := ⟨true, false, false, 0, 0⟩

/-- Pins of a host that holds `rst_n` at 1 and presents the request `req`. -/
def Pins.present (req : Request) : Pins := ⟨true, true, req.write, req.addr, req.wdata⟩

/-- The request that the pins carry (20_memory.md R51). -/
def Pins.request (p : Pins) : Request := ⟨p.reqWrite, p.reqAddr, p.reqWdata⟩

/-- The write of a command word to CMD (20_memory.md R58). -/
def Request.command (v : Word) : Request := ⟨true, RegName.cmd.offset, v⟩

/-- The pins that the next edge samples; a host of which no more samples are given is quiet (log entry 5). -/
def State.nextPins (s : State) : Pins :=
  match s.pins with
  | [] => Pins.quiet
  | p :: _ => p

/-- The machine as the next edge finds it once the pins are sampled: the sample is used up and the free values move on. -/
def State.sampled (s : State) : State :=
  { s with pins := s.pins.tail, freeIndex := s.freeIndex + 1 }

/-- The machine with its port at `port`. -/
def State.withPort (port : Port) (s : State) : State := { s with port := port }

/-- A transfer: the request is performed and its response is due (20_memory.md R52, R53; log entries 9 and 10). -/
def transfer (req : Request) (s : State) : Host.Outcome State Fault Refusal :=
  match perform req s with
  | .next (t, resp) => .next (t.withPort (.busy (req.latency t.regs.padcnt - 1) resp))
  | .fault f => .fault f
  | .refused q => .refused q

/-- A reset edge: the registers take their reset values, the port is reset, and a request in flight is dropped
(70_reset_and_hazards.md R210, R211). -/
def State.resetEdge (s : State) : State := (s.mapRegs Regs.clear).withPort .inReset

/-- One rising edge of `clk` at which the pins are `p` (20_memory.md R52, R53; 70_reset_and_hazards.md R210 to R213;
60_exceptions.md R197). -/
def clockEdge (p : Pins) (s : State) : Host.Outcome State Fault Refusal :=
  if p.rstN then
    match s.port with
    | .unreset => .refused .beforeFirstReset
    | .inReset => .next (s.withPort .ready)
    | .ready => if p.reqValid then transfer p.request s else .next s
    | .busy 0 resp => .next (s.withPort (.responding resp))
    | .busy (n + 1) resp => .next (s.withPort (.busy n resp))
    | .responding _ => .next (s.withPort .ready)
  else .next s.resetEdge

/-! ### The output pins -/

/-- The output pins of one cycle (20_memory.md R51). -/
structure OutPins where
  reqReady : Bool
  respValid : Bool
  respErr : Bool
  respRdata : Word
deriving DecidableEq, Repr

/-- What the block drives in a cycle in which `rst_n` is `rstN`: all 0 while `rst_n` = 0 (20_memory.md R52,
70_reset_and_hazards.md R210; log entry 11), free before the first reset (R213), and `resp_err` and `resp_rdata` free where
`resp_valid` = 0 (log entry 4). -/
def State.outPins (rstN : Bool) (s : State) : OutPins :=
  match s.port with
  | .unreset =>
    ⟨Config.freeReady s.freeIndex, Config.freeValid s.freeIndex, Config.freeErr s.freeIndex, Config.freeRdata s.freeIndex⟩
  | .inReset =>
    if rstN then ⟨false, false, Config.freeErr s.freeIndex, Config.freeRdata s.freeIndex⟩ else ⟨false, false, false, 0⟩
  | .ready =>
    if rstN then ⟨true, false, Config.freeErr s.freeIndex, Config.freeRdata s.freeIndex⟩ else ⟨false, false, false, 0⟩
  | .busy _ _ =>
    if rstN then ⟨false, false, Config.freeErr s.freeIndex, Config.freeRdata s.freeIndex⟩ else ⟨false, false, false, 0⟩
  | .responding resp =>
    if rstN then ⟨false, true, resp.err, resp.rdata⟩ else ⟨false, false, false, 0⟩

/-! ### Sequences -/

/-- A sequence of command words, each after the one before it (20_memory.md R64). -/
def execWords : List Word → State → Host.Outcome State Fault Refusal
  | [], s => .next s
  | v :: vs, s =>
    match execWord v s with
    | .next t => execWords vs t
    | .fault f => .fault f
    | .refused q => .refused q

/-- A sequence of requests in transfer order, with their responses in the same order (20_memory.md R64). -/
def performAll : List Request → State → Host.Outcome (State × List Response) Fault Refusal
  | [], s => .next (s, [])
  | req :: reqs, s =>
    match perform req s with
    | .fault f => .fault f
    | .refused q => .refused q
    | .next (t, resp) =>
      match performAll reqs t with
      | .next (u, resps) => .next (u, resp :: resps)
      | .fault f => .fault f
      | .refused q => .refused q

end Sys2Proof.Machine
end

