-- ==== Sys2Proof/Machine/Step.lean ====
section
/-! DEFINITION. One step of the machine: one rising edge of `clk` (20_memory.md R51), and the placing of a command word where
the next step takes it. -/

namespace Sys2Proof.Machine

/-- One rising edge of `clk`: sample the pins, then act (20_memory.md R51, R52). -/
def step (s : State) : Host.Outcome State Fault Refusal := clockEdge s.nextPins s.sampled

/-- `s` with a host that writes the word `w` to CMD at the next edge, and a port that can take it (log entry 12). -/
def State.withFetchWord (s : State) (nbits w : Nat) : State :=
  { s with port := .ready, pins := Pins.present (Request.command (BitVec.ofNat 32 (w % 2 ^ nbits))) :: s.pins }

end Sys2Proof.Machine
end

