-- ==== Sys2Proof/Machine/HostProgram.lean ====
section
/-! DEFINITION. What a host writes: the command lines and the pseudo-commands of 30_encoding.md R90 and R91, as sequences of
requests on the port, with the reading of their text. -/

namespace Sys2Proof.Machine

/-- A command line of the assembler syntax (30_encoding.md R90). -/
inductive Line where
  | nop
  | start (w : Width)
  | push (b : Byte)
  | final
  | clear
  /-- `.word v`: any 32-bit word, to write illegal commands. -/
  | word (v : Word)
deriving DecidableEq, Repr

/-- The instruction of a line; none for a raw word (30_encoding.md R90). -/
def Line.instr : Line → Option Instr
  | .nop => some .nop
  | .start w => some (.start w.wsel)
  | .push b => some (.push b)
  | .final => some .final
  | .clear => some .clear
  | .word _ => none

/-- The word of a line, as the table of 30_encoding.md R90 writes it. -/
def Line.toWord : Line → Word
  | .nop => 0x00000000
  | .start w => 0x10000000 ||| (w.wsel.setWidth 32 <<< 8)
  | .push b => 0x20000000 ||| zext32 b
  | .final => 0x30000000
  | .clear => 0x40000000
  | .word v => v

/-! ### The text of a line -/

/-- The byte value of a character in ASCII; none for a character ASCII does not have (30_encoding.md R90; log entry 13). -/
def asciiByte (c : Char) : Option Byte :=
  if c.toNat < 128 then some (BitVec.ofNat 8 c.toNat) else none

/-- The value of a decimal or hexadecimal digit. -/
def digitValue (c : Char) : Option Nat :=
  if 48 ≤ c.toNat ∧ c.toNat ≤ 57 then some (c.toNat - 48)
  else if 65 ≤ c.toNat ∧ c.toNat ≤ 70 then some (c.toNat - 55)
  else if 97 ≤ c.toNat ∧ c.toNat ≤ 102 then some (c.toNat - 87)
  else none

/-- The rest of a constant, after digits of value `n`; `afterDigit` says whether the character before is a digit. `_` only
groups digits (00_scope.md R7). DESIGN CHOICE, log entry 13: the spec does not say where `_` may stand nor that a constant has
a digit; here `_` stands between two digits only, so a constant ends in a digit and has at least one. -/
def digits (base : Nat) : Bool → Nat → List Char → Option Nat
  | afterDigit, n, [] => if afterDigit then some n else none
  | afterDigit, n, c :: cs =>
    if c = '_' then
      if afterDigit then digits base false n cs else none
    else
      match digitValue c with
      | none => none
      | some d => if d < base then digits base true (n * base + d) cs else none

/-- An integer as the spec writes it: decimal, or hexadecimal after `0x` (00_scope.md R7, 30_encoding.md R90). DESIGN CHOICE,
log entry 13: text without a digit (the empty text, `_`, `0x`, `0x_`) is no integer. -/
def number : List Char → Option Nat
  | '0' :: 'x' :: cs => digits 16 false 0 cs
  | cs => digits 10 false 0 cs

/-- The operand of PUSH: an integer 0..255, or a character between quotes (30_encoding.md R90). -/
def pushOperand : List Char → Option Byte
  | '\'' :: c :: '\'' :: [] => asciiByte c
  | cs =>
    match number cs with
    | none => none
    | some n => if n < 256 then some (BitVec.ofNat 8 n) else none

/-- The operand of START: 8, 16 or 32 (30_encoding.md R90). -/
def startOperand (cs : List Char) : Option Width :=
  match number cs with
  | none => none
  | some n => if n = 8 then some .w8 else if n = 16 then some .w16 else if n = 32 then some .w32 else none

/-- The operand of `.word`: any 32-bit word (30_encoding.md R90). -/
def wordOperand (cs : List Char) : Option Word :=
  match number cs with
  | none => none
  | some n => if n < 2 ^ 32 then some (BitVec.ofNat 32 n) else none

/-- A command line from its text: the mnemonic and, after one space, the operand (30_encoding.md R90; log entry 13). -/
def Line.parse : List Char → Option Line
  | 'N' :: 'O' :: 'P' :: [] => some .nop
  | 'F' :: 'I' :: 'N' :: 'A' :: 'L' :: [] => some .final
  | 'C' :: 'L' :: 'E' :: 'A' :: 'R' :: [] => some .clear
  | 'S' :: 'T' :: 'A' :: 'R' :: 'T' :: ' ' :: cs => (startOperand cs).map .start
  | 'P' :: 'U' :: 'S' :: 'H' :: ' ' :: cs => (pushOperand cs).map .push
  | '.' :: 'w' :: 'o' :: 'r' :: 'd' :: ' ' :: cs => (wordOperand cs).map .word
  | _ => none

/-! ### Programs -/

/-- A register access of a program: `WR CMD, line`, `RD reg`, and accesses at a raw offset (30_encoding.md R90,
95_test_vectors.md P3). -/
inductive HostOp where
  | wr (line : Line)
  | rd (reg : RegName)
  | rdAt (addr : BitVec 8)
  | wrAt (addr : BitVec 8) (v : Word)
deriving DecidableEq, Repr

/-- The request an access puts on the port; a read's write data is ignored (20_memory.md R51). -/
def HostOp.request : HostOp → Request
  | .wr line => Request.command line.toWord
  | .rd reg => ⟨false, reg.offset, 0⟩
  | .rdAt addr => ⟨false, addr, 0⟩
  | .wrAt addr v => ⟨true, addr, v⟩

/-- The name of a register in `RD <reg>` and `WR <reg>, v`: the readable ones of 30_encoding.md R90, and CMD, which
95_test_vectors.md P3 reads to show the bus error. -/
def RegName.parse : List Char → Option RegName
  | 'C' :: 'M' :: 'D' :: [] => some .cmd
  | 'S' :: 'T' :: 'A' :: 'T' :: 'U' :: 'S' :: [] => some .status
  | 'R' :: 'E' :: 'S' :: 'U' :: 'L' :: 'T' :: [] => some .result
  | 'C' :: 'O' :: 'U' :: 'N' :: 'T' :: [] => some .count
  | 'A' :: 'C' :: 'C' :: [] => some .acc
  | 'W' :: 'B' :: 'U' :: 'F' :: [] => some .wbuf
  | 'M' :: 'A' :: 'X' :: 'L' :: 'E' :: 'N' :: [] => some .maxlen
  | _ => none

/-- The offset in `RD @off`, which has 8 bits (95_test_vectors.md P3, 20_memory.md R51). -/
def offsetOperand (cs : List Char) : Option (BitVec 8) :=
  match number cs with
  | none => none
  | some n => if n < 2 ^ 8 then some (BitVec.ofNat 8 n) else none

/-- Two operands: the text before the first comma and space, and the text after it. -/
def splitComma : List Char → Option (List Char × List Char)
  | ',' :: ' ' :: cs => some ([], cs)
  | c :: cs => (splitComma cs).map fun p => (c :: p.1, p.2)
  | [] => none

/-- What `WR <reg>, ` writes. Into CMD it is a command line (30_encoding.md R90). DESIGN CHOICE, log entry 13: R90's `v` in
`WR CMD, v` may also be a bare number, which is the word of `.word v`; into another register, as `WR STATUS, 0` of
95_test_vectors.md P3, it is a bare number. -/
def writeOperand (reg : RegName) (cs : List Char) : Option HostOp :=
  match reg with
  | .cmd =>
    match Line.parse cs with
    | some line => some (.wr line)
    | none => (wordOperand cs).map fun v => .wr (.word v)
  | reg => (wordOperand cs).map (.wrAt reg.offset)

/-- A register access from its text: `RD @off`, `RD <reg>`, `WR <reg>, v`, or a command line, which is the access that writes
it to CMD (30_encoding.md R90, 95_test_vectors.md P3; log entry 13). -/
def HostOp.parse : List Char → Option HostOp
  | 'R' :: 'D' :: ' ' :: '@' :: cs => (offsetOperand cs).map .rdAt
  | 'R' :: 'D' :: ' ' :: cs => (RegName.parse cs).map .rd
  | 'W' :: 'R' :: ' ' :: cs =>
    match splitComma cs with
    | none => none
    | some (name, v) => (RegName.parse name).bind fun reg => writeOperand reg v
  | cs => (Line.parse cs).map .wr

/-- `PUSHS "s"`: one PUSH per byte, in order (30_encoding.md R91). -/
def pushs (S : List Byte) : List Line := S.map Line.push

/-- The lines of one computation: START, the pushes, FINAL (41_commands.md R160, 70_reset_and_hazards.md R215). -/
def computation (w : Width) (S : List Byte) : List Line := Line.start w :: (pushs S ++ [Line.final])

/-- `CKSUM w, "s"` (30_encoding.md R91). -/
def cksum (w : Width) (S : List Byte) : List HostOp :=
  (computation w S).map HostOp.wr ++ [.rd .status, .rd .result, .rd .count]

/-- `RESTART w` (30_encoding.md R91). -/
def restart (w : Width) : List Line := [.clear, .start w]

/-! ### The text of pseudo-commands -/

/-- The bytes of a text between quotes, after the opening quote (30_encoding.md R91). DESIGN CHOICE, log entry 13: the first
quote ends the text, and there are no escapes. -/
def stringRest : List Char → Option (List Byte)
  | '"' :: [] => some []
  | '"' :: _ :: _ => none
  | [] => none
  | c :: cs => (asciiByte c).bind fun b => (stringRest cs).map fun bs => b :: bs

/-- The operand `"s"` (30_encoding.md R91). -/
def stringOperand : List Char → Option (List Byte)
  | '"' :: cs => stringRest cs
  | _ => none

/-- A line of a host program as the accesses it stands for: a pseudo-command expands (30_encoding.md R91), and every other line
is one access (R90). -/
def parseProgramLine : List Char → Option (List HostOp)
  | 'P' :: 'U' :: 'S' :: 'H' :: 'S' :: ' ' :: cs => (stringOperand cs).map fun S => (pushs S).map .wr
  | 'C' :: 'K' :: 'S' :: 'U' :: 'M' :: ' ' :: cs =>
    match splitComma cs with
    | none => none
    | some (w, s) => (startOperand w).bind fun w => (stringOperand s).map (cksum w)
  | 'R' :: 'E' :: 'S' :: 'T' :: 'A' :: 'R' :: 'T' :: ' ' :: cs =>
    (startOperand cs).map fun w => (restart w).map .wr
  | cs => (HostOp.parse cs).map fun op => [op]

end Sys2Proof.Machine
end

