-- ==== Sys2Proof/Machine/Reference.lean ====
section
/-! DEFINITION. The reference semantics: the document's functions over a whole byte sequence (40_datapath.md sections 1 to 3).
They are exact arithmetic on naturals (00_scope.md R8); nothing here depends on how the block computes them. -/

namespace Sys2Proof.Machine

/-! ### Padding -/

/-- padlen(n, W) = (L − (n mod L)) mod L (40_datapath.md R104). -/
def padLen (w : Width) (n : Nat) : Nat := (w.lanes - n % w.lanes) % w.lanes

/-- Pad(S, W) = S ++ replicate(padlen(|S|, W), PAD_BYTE) (40_datapath.md R104). -/
def padded (w : Width) (S : List Byte) : List Byte :=
  S ++ List.replicate (padLen w S.length) Config.padByte

/-! ### Words -/

/-- T[i] as a natural number; i is below |T| wherever a rule uses it. -/
def byteAt (T : List Byte) (i : Nat) : Nat := (T.getD i 0).toNat

/-- The first `n` bytes of the group that begins at T[start], each in its big-endian place of a word at width W
(40_datapath.md R106, R118). -/
def groupSum (w : Width) (T : List Byte) (start n : Nat) : Nat :=
  ((List.range n).map fun j => byteAt T (start + j) <<< (8 * (w.lanes - 1 - j))).sum

/-- word(T, W, k) (40_datapath.md R106). -/
def wordAt (w : Width) (T : List Byte) (k : Nat) : Nat := groupSum w T (k * w.lanes) w.lanes

/-- The sum of the first `q` words of T, not reduced (40_datapath.md R112, R118). -/
def wordSum (w : Width) (T : List Byte) (q : Nat) : Nat := ((List.range q).map (wordAt w T)).sum

/-! ### Checksums -/

/-- ChecksumW(S): the three checksums as one function of W (40_datapath.md R112). -/
def checksum (w : Width) (S : List Byte) : Nat :=
  wordSum w (padded w S) ((padded w S).length / w.lanes) % 2 ^ w.bits

/-- Checksum8(S), a sum of bytes with no padding (40_datapath.md R109). -/
def checksum8 (S : List Byte) : Nat := (S.map BitVec.toNat).sum % 2 ^ 8

/-- Checksum16(S), a sum of byte pairs of Pad(S, 16) (40_datapath.md R110). -/
def checksum16 (S : List Byte) : Nat :=
  ((List.range ((padded .w16 S).length / 2)).map fun k =>
    (byteAt (padded .w16 S) (2 * k) <<< 8) ||| byteAt (padded .w16 S) (2 * k + 1)).sum % 2 ^ 16

/-- Checksum32(S), a sum of byte quadruples of Pad(S, 32) (40_datapath.md R111). -/
def checksum32 (S : List Byte) : Nat :=
  ((List.range ((padded .w32 S).length / 4)).map fun k =>
    (byteAt (padded .w32 S) (4 * k) <<< 24) ||| (byteAt (padded .w32 S) (4 * k + 1) <<< 16)
      ||| (byteAt (padded .w32 S) (4 * k + 2) <<< 8) ||| byteAt (padded .w32 S) (4 * k + 3)).sum % 2 ^ 32

/-- What a 32-bit accumulator holds: a sum taken one term at a time, each time mod 2^32 (40_datapath.md R115). -/
def wrappedSum (xs : List Nat) : Nat := xs.foldl (fun acc x => (acc + x) % 2 ^ 32) 0

end Sys2Proof.Machine
end

