-- ==== Sys2Proof/Safety.lean ====
section
/-! DEFINITION. What holds of a safe run: the invariants of 10_state.md R34 with those of R24 to R31, what the registers say
about the bytes pushed so far (40_datapath.md R118, 41_commands.md R160), and the states that a run from reset can reach
under any host. -/

namespace Sys2Proof.Machine

/-- What every command keeps true of the registers (10_state.md R25 to R32, R34; 00_scope.md R6; 41_commands.md R145). -/
structure Regs.Inv (r : Regs) : Prop where
  /-- 1023 ≤ MAX_LEN (00_scope.md R6). -/
  maxlen_ge : 1023 ≤ r.maxlen.toNat
  /-- MAX_LEN ≤ 2^32 − 4 (00_scope.md R6). -/
  maxlen_le : r.maxlen.toNat ≤ 2 ^ 32 - 4
  /-- LANE ≤ L − 1 (R34). -/
  lane_lt : r.lane.toNat < r.width.lanes
  /-- PADCNT ≤ L − 1 (R34). -/
  padcnt_lt : r.padcnt.toNat < r.width.lanes
  /-- RESULT < 2^W (R34). -/
  result_lt : r.result.toNat < 2 ^ r.width.bits
  /-- COUNT ≤ MAX_LEN + 3 (R28). -/
  count_le : r.count.toNat ≤ r.maxlen.toNat + 3
  /-- The bits of WBUF below position 8 · (L − LANE) are 0 (R30). -/
  wbuf_low : r.wbuf.toNat % 2 ^ (8 * (r.width.lanes - r.lane.toNat)) = 0
  /-- The bits of WBUF at position 8 · L and above are 0 (R30). -/
  wbuf_high : r.wbuf.toNat < 2 ^ (8 * r.width.lanes)
  /-- ECODE ≠ 0 exactly when STATE = ERROR (R31). -/
  ecode_iff : r.ecode ≠ .noError ↔ r.state = .error
  /-- In IDLE every field is 0 (R34). -/
  idle_reset : r.state = .idle → r = Regs.reset r.maxlen
  /-- In ACTIVE, LANE = COUNT mod L (R34). -/
  active_lane : r.state = .active → r.lane.toNat = r.count.toNat % r.width.lanes
  /-- In ACTIVE, PADCNT = 0 (R34). -/
  active_padcnt : r.state = .active → r.padcnt = 0
  /-- In ACTIVE, COUNT ≤ MAX_LEN (41_commands.md R145). -/
  active_count : r.state = .active → r.count.toNat ≤ r.maxlen.toNat
  /-- In ACTIVE, RESULT is still what START left (R27). -/
  active_result : r.state = .active → r.result = 0
  /-- In DONE, LANE = 0 (R34). -/
  done_lane : r.state = .done → r.lane = 0
  /-- In DONE, WBUF = 0 (R34). -/
  done_wbuf : r.state = .done → r.wbuf = 0
  /-- In DONE, COUNT mod L = 0 (R34). -/
  done_count : r.state = .done → r.count.toNat % r.width.lanes = 0
  /-- In DONE, RESULT = ACC & mask(W) (R27). -/
  done_result : r.state = .done → r.result = r.acc &&& r.width.mask

/-- A bus error's response carries the data 0 (20_memory.md R57). -/
def Response.wellFormed (resp : Response) : Bool := !resp.err || resp.rdata == 0

/-- The port has been reset, and a response it owes is well formed. -/
def Port.wellFormed : Port → Bool
  | .unreset => false
  | .inReset => true
  | .ready => true
  | .busy _ resp => resp.wellFormed
  | .responding resp => resp.wellFormed

/-- The invariant of the machine. -/
structure State.Inv (s : State) : Prop where
  regs : s.regs.Inv
  port : s.port.wellFormed

/-! ### What the registers say about the bytes pushed -/

/-- The registers of a computation at width `w` into which exactly the bytes `S` have been pushed (40_datapath.md R118). -/
def regsAfterPushes (maxlen : Word) (w : Width) (S : List Byte) : Regs where
  state := .active
  width := w
  lane := BitVec.ofNat 2 (S.length % w.lanes)
  padcnt := 0
  ecode := .noError
  result := 0
  count := BitVec.ofNat 32 S.length
  acc := BitVec.ofNat 32 (wordSum w S (S.length / w.lanes))
  wbuf := BitVec.ofNat 32 (groupSum w S (S.length / w.lanes * w.lanes) (S.length % w.lanes))
  maxlen := maxlen

/-- The registers once FINAL has completed the computation of `S` at width `w` (41_commands.md R160). -/
def regsAfterFinal (maxlen : Word) (w : Width) (S : List Byte) : Regs where
  state := .done
  width := w
  lane := 0
  padcnt := BitVec.ofNat 2 (padLen w S.length)
  ecode := .noError
  result := BitVec.ofNat 32 (checksum w S)
  count := BitVec.ofNat 32 (padded w S).length
  acc := BitVec.ofNat 32 (wordSum w (padded w S) ((padded w S).length / w.lanes))
  wbuf := 0
  maxlen := maxlen

/-- The registers are those of no computation, or of one over some bytes, at most MAX_LEN of them, that is in progress or
complete; no error has been met (41_commands.md R160, R162). -/
def Regs.Explained (r : Regs) : Prop :=
  r = Regs.reset r.maxlen
    ∨ ∃ (w : Width) (S : List Byte), S.length ≤ r.maxlen.toNat ∧
        (r = regsAfterPushes r.maxlen w S ∨ r = regsAfterFinal r.maxlen w S)

/-- The registers tell the bytes of some computation, or they did so when an error was met and only STATE and ECODE have
changed since (60_exceptions.md R180, R189). -/
def Regs.History (r : Regs) : Prop :=
  r.Explained ∨
    ∃ (r₀ : Regs) (code : ErrorCode), r₀.Explained ∧ code ≠ .noError ∧ r = { r₀ with state := .error, ecode := code }

/-! ### What the next edge does -/

/-- The next edge takes the command `i`: the port is ready and the pins write to CMD a word that decodes to `i`
(20_memory.md R52, R58). -/
def State.TakesCommand (i : Instr) (s : State) : Prop :=
  s.nextPins.rstN = true ∧ s.port = .ready ∧ s.nextPins.reqValid = true ∧ s.nextPins.reqWrite = true ∧
    s.nextPins.reqAddr = 0x00 ∧ decode s.nextPins.reqWdata = .legal i

/-- The next edge is a reset edge or takes a START or a CLEAR: the three events that write every register (10_state.md R28,
41_commands.md R147). -/
def State.ClearsAtNextEdge (s : State) : Prop :=
  s.nextPins.rstN = false ∨ (∃ wsel, s.TakesCommand (.start wsel)) ∨ s.TakesCommand .clear

/-! ### Runs -/

/-- `n` clock edges one after the other, stopping at the first fault or refusal. -/
def runEdges : Nat → State → Host.Outcome State Fault Refusal
  | 0, s => .next s
  | n + 1, s =>
    match step s with
    | .next t => runEdges n t
    | .fault f => .fault f
    | .refused q => .refused q

/-- The states of a run that begins right after reset, whatever the host drives on the pins (70_reset_and_hazards.md R213). -/
inductive Reachable : State → Prop where
  | reset (pins : List Pins) : Reachable { State.reset with pins := pins }
  | step {s t : State} : Reachable s → Machine.step s = .next t → Reachable t

end Sys2Proof.Machine
end

