-- ==== Sys2Proof/Certificates/Slice0/Obligations.lean ====
section
/-! DEFINITION. The statements for the provers. Each docstring names the rule of spec/ it formalises. A result statement gives
the whole next state, so it is the command's completion and its frame as well. -/

open Sys2Proof Sys2Proof.Machine

/-! ### Encoding -/

/-- The named words of R87 decode to their commands. -/
def Obligations.NamedWordsDecodeToTheirCommands : Prop :=
  decode 0x00000000 = .legal .nop ∧
  decode 0x10000000 = .legal (.start 0) ∧
  decode 0x10000100 = .legal (.start 1) ∧
  decode 0x10000200 = .legal (.start 2) ∧
  decode 0x20000041 = .legal (.push 0x41) ∧
  decode 0x200000FF = .legal (.push 0xFF) ∧
  decode 0x30000000 = .legal .final ∧
  decode 0x40000000 = .legal .clear

/-- R87: a word selects a command exactly when (v & mask) = match, START with WSEL ≠ 3 besides; its operand is the field. -/
def Obligations.WordSelectsCommandByMaskAndMatch : Prop :=
  ∀ v : Word,
    (decode v = .legal .nop ↔ v &&& 0xFFFFFFFF = 0x00000000) ∧
    (∀ wsel, decode v = .legal (.start wsel) ↔
      v &&& 0xFFFFFCFF = 0x10000000 ∧ wsel ≠ 3 ∧ wsel.toNat = v.toNat / 2 ^ 8 % 2 ^ 2) ∧
    (∀ b, decode v = .legal (.push b) ↔ v &&& 0xFFFFFF00 = 0x20000000 ∧ b.toNat = v.toNat % 2 ^ 8) ∧
    (decode v = .legal .final ↔ v &&& 0xFFFFFFFF = 0x30000000) ∧
    (decode v = .legal .clear ↔ v &&& 0xFFFFFFFF = 0x40000000)

/-- R88: exactly one word is ILLEGAL_WIDTH, and ILLEGAL_OPCODE is every other word that no row of R87 selects. -/
def Obligations.IllegalWordsAreTheRest : Prop :=
  ∀ v : Word,
    (decode v = .illegalWidth ↔ v = 0x10000300) ∧
    (decode v = .illegalOpcode ↔
      v ≠ 0x00000000 ∧ v ≠ 0x10000000 ∧ v ≠ 0x10000100 ∧ v ≠ 0x10000200 ∧ v ≠ 0x10000300 ∧
      v &&& 0xFFFFFF00 ≠ 0x20000000 ∧ v ≠ 0x30000000 ∧ v ≠ 0x40000000)

/-- Decoding and encoding are inverse: every well-formed instruction comes back from its word, and every legal word is the
word of the one well-formed instruction it decodes to. -/
def Obligations.DecodeAndEncodeAgree : Prop :=
  (∀ i : Instr, i.wellFormed = true → decode (encode i) = .legal i) ∧
  ∀ (v : Word) (i : Instr), decode v = .legal i → i.wellFormed = true ∧ encode i = v

/-- R90: the word of a command line is the word of its instruction, and it decodes to that instruction. -/
def Obligations.AssemblerLinesDecodeToTheirInstruction : Prop :=
  ∀ (l : Line) (i : Instr), l.instr = some i → l.toWord = encode i ∧ decode l.toWord = .legal i

/-! ### The commands -/

/-- R141: NOP is the word 0 alone and changes nothing, in every state; another word with OP = 0 is ILLEGAL_OPCODE. -/
def Obligations.NopChangesNothing : Prop :=
  (∀ s : State, exec .nop s = .next s) ∧
  decode 0x00000000 = .legal .nop ∧
  ∀ v : Word, v.toNat / 2 ^ 28 = 0 → v ≠ 0 → decode v = .illegalOpcode

/-- R142, R143: START with a legal WSEL completes in every state and writes every register, so that two in a row are the
second alone; of all commands only START leaves ERROR for ACTIVE. -/
def Obligations.StartWritesEveryRegister : Prop :=
  (∀ (s : State) (wsel : BitVec 2) (w : Width),
    (wsel = 0 ∧ w = .w8) ∨ (wsel = 1 ∧ w = .w16) ∨ (wsel = 2 ∧ w = .w32) →
    decode (0x10000000 ||| (wsel.setWidth 32 <<< 8)) = .legal (.start wsel) ∧
    exec (.start wsel) s = .next { s with regs :=
      { state := .active, width := w, lane := 0, padcnt := 0, ecode := .noError, result := 0, count := 0,
        acc := 0, wbuf := 0, maxlen := s.regs.maxlen } }) ∧
  ∀ (v : Word) (s t : State), execWord v s = .next t → s.regs.state = .error → t.regs.state = .active →
    ∃ wsel, decode v = .legal (.start wsel)

/-- R150: CLEAR completes in every state and gives every field of R38 its reset value; of all commands only CLEAR leaves
ERROR for IDLE. -/
def Obligations.ClearGivesResetValues : Prop :=
  decode 0x40000000 = .legal .clear ∧
  (∀ s : State, exec .clear s = .next { s with regs :=
    { state := .idle, width := .w8, lane := 0, padcnt := 0, ecode := .noError, result := 0, count := 0,
      acc := 0, wbuf := 0, maxlen := s.regs.maxlen } }) ∧
  ∀ (v : Word) (s t : State), execWord v s = .next t → s.regs.state = .error → t.regs.state = .idle →
    decode v = .legal .clear

/-- The model's choice (log entry 7): START with the code 3 in WSEL, which no decoded word holds (R142), raises ILLEGAL_WIDTH
as the word 0x1000_0300 does (R183), and is ignored in ERROR. -/
def Obligations.StartWithReservedCodeRaisesIllegalWidth : Prop :=
  ∀ s : State,
    (s.regs.state ≠ .error →
      exec (.start 3) s = .next { s with regs := { s.regs with state := .error, ecode := .illegalWidth } }) ∧
    (s.regs.state = .error → exec (.start 3) s = .next s)

/-- R107: the assembly step. A byte that does not complete a word goes to its place in WBUF; the byte that does adds the word
to ACC mod 2^32 and empties WBUF; COUNT gains 1, and nothing else changes. (LANE < L is R34, which every step keeps.) -/
def Obligations.AssembleTakesOneByte : Prop :=
  ∀ (r : Regs) (b : Byte), r.lane.toNat < r.width.lanes →
    ∃ w : Nat, w = r.wbuf.toNat ||| (b.toNat <<< (8 * (r.width.lanes - 1 - r.lane.toNat))) ∧
      (r.lane.toNat = r.width.lanes - 1 → r.assemble b = { r with
        count := r.count + 1, acc := BitVec.ofNat 32 ((r.acc.toNat + w) % 2 ^ 32), wbuf := 0, lane := 0 }) ∧
      (r.lane.toNat ≠ r.width.lanes - 1 → r.assemble b = { r with
        count := r.count + 1, wbuf := BitVec.ofNat 32 w, lane := r.lane + 1 })

/-- R144 with R107, all three widths: PUSH completes in every state, with the effect of the check that applies first: ignored
in ERROR, SEQUENCE in IDLE and DONE, LENGTH_OVERFLOW once COUNT ≥ MAX_LEN, and otherwise the byte is assembled. -/
def Obligations.PushAssemblesTheByte : Prop :=
  ∀ (s : State) (b : Byte), s.regs.lane.toNat < s.regs.width.lanes →
    ∃ w : Nat,
      w = s.regs.wbuf.toNat ||| (b.toNat <<< (8 * (s.regs.width.lanes - 1 - s.regs.lane.toNat))) ∧
      decode (0x20000000 ||| b.setWidth 32) = .legal (.push b) ∧
      exec (.push b) s = .next { s with regs :=
        if s.regs.state = .error then s.regs
        else if s.regs.state ≠ .active then { s.regs with state := .error, ecode := .sequence }
        else if s.regs.maxlen.toNat ≤ s.regs.count.toNat then
          { s.regs with state := .error, ecode := .lengthOverflow }
        else if s.regs.lane.toNat = s.regs.width.lanes - 1 then
          { s.regs with
            count := s.regs.count + 1, acc := BitVec.ofNat 32 ((s.regs.acc.toNat + w) % 2 ^ 32), wbuf := 0, lane := 0 }
        else
          { s.regs with count := s.regs.count + 1, wbuf := BitVec.ofNat 32 w, lane := s.regs.lane + 1 } }

/-- R184: PUSH and FINAL in IDLE or DONE raise SEQUENCE, which writes STATE and ECODE alone; in ERROR they are ignored. -/
def Obligations.PushAndFinalOutsideComputationRaiseSequence : Prop :=
  ∀ (s : State) (b : Byte),
    (s.regs.state = .idle ∨ s.regs.state = .done →
      exec (.push b) s = .next { s with regs := { s.regs with state := .error, ecode := .sequence } } ∧
      exec .final s = .next { s with regs := { s.regs with state := .error, ecode := .sequence } }) ∧
    (s.regs.state = .error → exec (.push b) s = .next s ∧ exec .final s = .next s)

/-- R185: PUSH in ACTIVE with COUNT ≥ MAX_LEN drops the byte and raises LENGTH_OVERFLOW. -/
def Obligations.PushPastMaxLenRaisesLengthOverflow : Prop :=
  ∀ (s : State) (b : Byte), s.regs.state = .active → s.regs.maxlen.toNat ≤ s.regs.count.toNat →
    exec (.push b) s = .next { s with regs := { s.regs with state := .error, ecode := .lengthOverflow } }

/-- R146 with R117 in closed form: FINAL completes in every state, with the effect of the check that applies first: ignored in
ERROR, SEQUENCE in IDLE and DONE; in ACTIVE it fills the rest of the word that is being assembled with 0x58 bytes, adds it to
ACC mod 2^32 if there was one, counts the padding, latches ACC & mask(W), and enters DONE. -/
def Obligations.FinalPadsAndLatches : Prop :=
  decode 0x30000000 = .legal .final ∧
  ∀ s : State, s.regs.lane.toNat < s.regs.width.lanes →
    ∃ (pad : Nat) (acc : Word),
      pad = (s.regs.width.lanes - s.regs.lane.toNat) % s.regs.width.lanes ∧
      acc = (if s.regs.lane = 0 then s.regs.acc
             else s.regs.acc + (s.regs.wbuf ||| BitVec.ofNat 32 (0x58585858 % 2 ^ (8 * pad)))) ∧
      exec .final s = .next { s with regs :=
        if s.regs.state = .error then s.regs
        else if s.regs.state ≠ .active then { s.regs with state := .error, ecode := .sequence }
        else
          { s.regs with
            state := .done, lane := 0, padcnt := BitVec.ofNat 2 pad, count := s.regs.count + BitVec.ofNat 32 pad,
            acc := acc, wbuf := (if s.regs.lane = 0 then s.regs.wbuf else 0),
            result := BitVec.ofNat 32 (acc.toNat % 2 ^ s.regs.width.bits) } }

/-- R180: raising an error writes STATE and ECODE, or nothing where the block is in ERROR already. -/
def Obligations.RaisingAnErrorWritesStateAndCode : Prop :=
  ∀ (s : State) (code : ErrorCode),
    (s.regs.state = .error → s.raiseError code = s) ∧
    (s.regs.state ≠ .error →
      s.raiseError code = { s with regs := { s.regs with state := .error, ecode := code } })

/-- R104 in the block: FINAL in ACTIVE, with LANE = COUNT mod L as R34 has it, appends padlen(COUNT, W) bytes. -/
def Obligations.FinalAppendsPadLenBytes : Prop :=
  ∀ s t : State, s.regs.Inv → s.regs.state = .active → exec .final s = .next t →
    t.regs.padcnt.toNat = (s.regs.width.lanes - s.regs.count.toNat % s.regs.width.lanes) % s.regs.width.lanes ∧
    t.regs.count.toNat = s.regs.count.toNat + t.regs.padcnt.toNat ∧
    t.regs.count.toNat % s.regs.width.lanes = 0

/-- R187: in ERROR, PUSH, FINAL and both kinds of illegal word are ignored. -/
def Obligations.ErrorStateIgnoresRejectedCommands : Prop :=
  ∀ (s : State) (v : Word) (b : Byte), s.regs.state = .error →
    exec (.push b) s = .next s ∧ exec .final s = .next s ∧
    (decode v = .illegalOpcode ∨ decode v = .illegalWidth → execWord v s = .next s)

/-- R182, R183: outside ERROR an illegal word raises its error, which writes STATE and ECODE alone; in ERROR it is ignored. -/
def Obligations.IllegalWordRaisesItsError : Prop :=
  ∀ (s : State) (v : Word),
    (s.regs.state ≠ .error → decode v = .illegalOpcode →
      execWord v s = .next { s with regs := { s.regs with state := .error, ecode := .illegalOpcode } }) ∧
    (s.regs.state ≠ .error → decode v = .illegalWidth →
      execWord v s = .next { s with regs := { s.regs with state := .error, ecode := .illegalWidth } }) ∧
    (s.regs.state = .error → decode v = .illegalOpcode ∨ decode v = .illegalWidth → execWord v s = .next s)

/-- R140, the state-transition table: every command word completes in every state, and the STATE and the ECODE it leaves
are those of the table's entry. -/
def Obligations.EveryWordFollowsTheTransitionTable : Prop :=
  ∀ (v : Word) (s : State), ∃ t, execWord v s = .next t ∧
    match decode v, s.regs.state with
    | .legal .nop, _ => t = s
    | .legal (.start _), _ => t.regs.state = .active ∧ t.regs.ecode = .noError
    | .legal .clear, _ => t.regs.state = .idle ∧ t.regs.ecode = .noError
    | .legal (.push _), .idle => t.regs.state = .error ∧ t.regs.ecode = .sequence
    | .legal (.push _), .active =>
      if s.regs.count.toNat < s.regs.maxlen.toNat then t.regs.state = .active ∧ t.regs.ecode = s.regs.ecode
      else t.regs.state = .error ∧ t.regs.ecode = .lengthOverflow
    | .legal (.push _), .done => t.regs.state = .error ∧ t.regs.ecode = .sequence
    | .legal (.push _), .error => t = s
    | .legal .final, .idle => t.regs.state = .error ∧ t.regs.ecode = .sequence
    | .legal .final, .active => t.regs.state = .done ∧ t.regs.ecode = s.regs.ecode
    | .legal .final, .done => t.regs.state = .error ∧ t.regs.ecode = .sequence
    | .legal .final, .error => t = s
    | .illegalOpcode, .error => t = s
    | .illegalOpcode, _ => t.regs.state = .error ∧ t.regs.ecode = .illegalOpcode
    | .illegalWidth, .error => t = s
    | .illegalWidth, _ => t.regs.state = .error ∧ t.regs.ecode = .illegalWidth

/-- R189: entry into ERROR is precise. Whatever word brings the block from another state into ERROR changes STATE and ECODE
and nothing else of the machine, and the code is one of 1 to 4. -/
def Obligations.ErrorEntryIsPrecise : Prop :=
  ∀ (v : Word) (s t : State), execWord v s = .next t → s.regs.state ≠ .error → t.regs.state = .error →
    t = { s with regs := { s.regs with state := .error, ecode := t.regs.ecode } } ∧
    1 ≤ t.regs.ecode.code.toNat ∧ t.regs.ecode.code.toNat ≤ 4

/-- No command touches the port, the pins, the free values or MAXLEN (R32); START and CLEAR alone write WIDTH (R24), and they
and FINAL alone write RESULT (R27) and PADCNT (R26). -/
def Obligations.CommandsChangeOnlyTheirRegisters : Prop :=
  ∀ (i : Instr) (s t : State), exec i s = .next t →
    t = { s with regs := t.regs } ∧ t.regs.maxlen = s.regs.maxlen ∧
    (t.regs.width ≠ s.regs.width → (∃ wsel, i = .start wsel) ∨ i = .clear) ∧
    (t.regs.result ≠ s.regs.result → (∃ wsel, i = .start wsel) ∨ i = .clear ∨ i = .final) ∧
    (t.regs.padcnt ≠ s.regs.padcnt → (∃ wsel, i = .start wsel) ∨ i = .clear ∨ i = .final)

/-- R147: FINAL in ACTIVE latches the low W bits of ACC after padding, and in DONE, and in ERROR as well, every step but
a reset edge and an edge that takes a START or a CLEAR leaves WIDTH, COUNT, PADCNT, ACC and RESULT as they are: any other
command, an error, a read, and an edge that takes no request, whatever is on the pins. -/
def Obligations.LatchedValuesStay : Prop :=
  (∀ s t : State, s.regs.state = .active → exec .final s = .next t →
    t.regs.result.toNat = t.regs.acc.toNat % 2 ^ t.regs.width.bits) ∧
  ∀ s t : State, step s = .next t → s.regs.state = .done ∨ s.regs.state = .error → ¬ s.ClearsAtNextEdge →
    t.regs.width = s.regs.width ∧ t.regs.count = s.regs.count ∧ t.regs.padcnt = s.regs.padcnt ∧
    t.regs.acc = s.regs.acc ∧ t.regs.result = s.regs.result ∧ (t.regs.state = .done ∨ t.regs.state = .error)

/-! ### STATUS and the register window -/

/-- R33: the fields of STATUS are at fixed bits, the reserved bits read as 0, and its reset value is 0. -/
def Obligations.StatusFieldsAtFixedBits : Prop :=
  (∀ r : Regs,
    r.status.toNat % 2 ^ 2 = r.state.code.toNat ∧
    r.status.toNat / 2 ^ 2 % 2 ^ 2 = r.width.wsel.toNat ∧
    r.status.toNat / 2 ^ 4 % 2 ^ 2 = r.lane.toNat ∧
    r.status.toNat / 2 ^ 6 % 2 ^ 2 = r.padcnt.toNat ∧
    r.status.toNat / 2 ^ 8 % 2 ^ 3 = r.ecode.code.toNat ∧
    r.status.toNat / 2 ^ 11 = 0) ∧
  State.reset.regs.status = 0

/-- R55, R56: a read of each readable offset returns that register's value without an error and changes nothing. -/
def Obligations.ReadReturnsTheRegister : Prop :=
  ∀ (s : State) (d : Word),
    perform ⟨false, 0x04, d⟩ s = .next (s, ⟨false, s.regs.status⟩) ∧
    perform ⟨false, 0x08, d⟩ s = .next (s, ⟨false, s.regs.result⟩) ∧
    perform ⟨false, 0x0C, d⟩ s = .next (s, ⟨false, s.regs.count⟩) ∧
    perform ⟨false, 0x10, d⟩ s = .next (s, ⟨false, s.regs.acc⟩) ∧
    perform ⟨false, 0x14, d⟩ s = .next (s, ⟨false, s.regs.wbuf⟩) ∧
    perform ⟨false, 0x18, d⟩ s = .next (s, ⟨false, s.regs.maxlen⟩)

/-- R57: a request gets a bus error, with data 0 and no state change, exactly when one of the four conditions holds. -/
def Obligations.BusErrorExactlyWhenRuleSays : Prop :=
  ∀ (req : Request) (s : State),
    ((req.addr.toNat % 4 ≠ 0 ∨ 0x1C ≤ req.addr.toNat ∨
        (req.write = true ∧ req.addr ∈ ([0x04, 0x08, 0x0C, 0x10, 0x14, 0x18] : List (BitVec 8))) ∨
        (req.write = false ∧ req.addr = 0x00)) →
      perform req s = .next (s, ⟨true, 0⟩)) ∧
    ((∃ t resp, perform req s = .next (t, resp) ∧ resp.err = true) →
      req.addr.toNat % 4 ≠ 0 ∨ 0x1C ≤ req.addr.toNat ∨
        (req.write = true ∧ req.addr ∈ ([0x04, 0x08, 0x0C, 0x10, 0x14, 0x18] : List (BitVec 8))) ∨
        (req.write = false ∧ req.addr = 0x00))

/-- R58: a write of any word to CMD executes it and responds with no error and data 0, accepted or not. -/
def Obligations.CommandWriteIsAlwaysAcknowledged : Prop :=
  ∀ (v : Word) (s : State), ∃ t, execWord v s = .next t ∧ perform ⟨true, 0x00, v⟩ s = .next (t, ⟨false, 0⟩)

/-- R62: reads have no side effect, whatever their offset. -/
def Obligations.ReadsHaveNoSideEffect : Prop :=
  ∀ (req : Request) (s : State), req.write = false → ∃ resp, perform req s = .next (s, resp)

/-! ### Reset and the port -/

/-- R38, R210: the machine right after reset, its outputs while `rst_n` = 0, and the same values after CLEAR. -/
def Obligations.ResetStateHoldsResetValues : Prop :=
  State.reset.regs.state = .idle ∧ State.reset.regs.width = .w8 ∧ State.reset.regs.lane = 0 ∧
  State.reset.regs.padcnt = 0 ∧ State.reset.regs.ecode = .noError ∧ State.reset.regs.result = 0 ∧
  State.reset.regs.count = 0 ∧ State.reset.regs.acc = 0 ∧ State.reset.regs.wbuf = 0 ∧
  State.reset.regs.status = 0 ∧ State.reset.regs.maxlen = Config.maxLen ∧
  State.reset.outPins false = ⟨false, false, false, 0⟩ ∧
  ∀ s : State, exec .clear s = .next { s with regs := { State.reset.regs with maxlen := s.regs.maxlen } }

/-- R210, R211: one edge with `rst_n` = 0 resets the registers and the port from every state, a request in flight included,
and the outputs are 0 while `rst_n` = 0; MAXLEN is not affected. -/
def Obligations.ResetEdgeResetsEverything : Prop :=
  ∀ (s : State) (p : Pins) (rest : List Pins), s.pins = p :: rest → p.rstN = false →
    ∃ t, step s = .next t ∧ t.outPins false = ⟨false, false, false, 0⟩ ∧
      t =
        { regs := { state := .idle, width := .w8, lane := 0, padcnt := 0, ecode := .noError, result := 0, count := 0,
                    acc := 0, wbuf := 0, maxlen := s.regs.maxlen },
          port := .inReset, pins := rest, freeIndex := s.freeIndex + 1 }

/-- While `rst_n` = 0 every output of a block that has been reset is 0 (R210, R52). That this goes by the level of `rst_n`
within the cycle, before the next edge, is the model's reading of the two rules, log entry 11. -/
def Obligations.OutputsAreZeroDuringReset : Prop :=
  ∀ s : State, s.port ≠ .unreset → s.outPins false = ⟨false, false, false, 0⟩

/-- R212: at the first edge with `rst_n` = 1 after reset the block sets `req_ready` = 1 and its registers do not change. -/
def Obligations.FirstEdgeAfterResetMakesReady : Prop :=
  ∀ (s : State) (p : Pins) (rest : List Pins), s.pins = p :: rest → s.port = .inReset → p.rstN = true →
    ∃ t, step s = .next t ∧ t.regs = s.regs ∧ t.pins = rest ∧ t.port = .ready ∧ (t.outPins true).reqReady = true

/-- A step runs the decoded instruction: where the next pins write to CMD a word that decodes to `i` and the port is ready,
the step is `exec i` on the machine with that sample used up, and then the port owes the acknowledgement (R52, R53, R58). That
the whole effect comes at the transfer edge is the model's, log entry 10, and so is the count of cycles that `commandLatency`
less 1 in `busy` stands for, log entry 9. -/
def Obligations.StepRunsTheDecodedCommand : Prop :=
  ∀ (s t : State) (p : Pins) (rest : List Pins) (i : Instr),
    s.port = .ready → s.pins = p :: rest →
    p.rstN = true → p.reqValid = true → p.reqWrite = true → p.reqAddr = 0x00 → decode p.reqWdata = .legal i →
    exec i { s with pins := rest, freeIndex := s.freeIndex + 1 } = .next t →
    step s = .next
      { t with port := .busy (commandLatency p.reqWdata t.regs.padcnt - 1) ⟨false, 0⟩ }

/-- `withFetchWord`, the model's own operation (log entry 12), places a command word so that the very next step runs it, in
every state. The effect at the transfer edge is log entry 10, and the count of cycles in `busy` is log entry 9. -/
def Obligations.PlacedWordRunsAtTheNextStep : Prop :=
  ∀ (s t : State) (w : Nat), w < 2 ^ 32 →
    execWord (BitVec.ofNat 32 w) { s with port := .ready, freeIndex := s.freeIndex + 1 } = .next t →
    step (s.withFetchWord 32 w) = .next
      { t with port := .busy (commandLatency (BitVec.ofNat 32 w) t.regs.padcnt - 1) ⟨false, 0⟩ }

/-- Where `rst_n`, `req_valid` and `req_ready` are 1, the edge transfers the request, and `req_ready` is 0 until its response
(R52, R53). That the request's whole effect is done at this very edge, and its response held from then on, is the model's, log
entry 10. -/
def Obligations.TransferPerformsTheRequest : Prop :=
  ∀ (s : State) (p : Pins) (rest : List Pins),
    (s.outPins true).reqReady = true → s.port ≠ .unreset → s.pins = p :: rest → p.rstN = true → p.reqValid = true →
    ∃ t resp n,
      perform ⟨p.reqWrite, p.reqAddr, p.reqWdata⟩ { s with pins := rest, freeIndex := s.freeIndex + 1 } = .next (t, resp) ∧
      step s = .next { t with port := .busy n resp } ∧
      (State.outPins true { t with port := .busy n resp }).reqReady = false

/-- R197: with `rst_n` = 1 and no request presented, a ready block keeps its registers and stays ready. -/
def Obligations.ReadyBlockWaits : Prop :=
  ∀ s : State, s.port = .ready → (∀ p ∈ s.pins, p.rstN = true ∧ p.reqValid = false) →
    ∀ n, ∃ t, runEdges n s = .next t ∧ t.regs = s.regs ∧ t.port = .ready

/-- Every transferred request gets exactly one response after finitely many cycles, if `rst_n` stays 1 (R53, R219). The exact
edges are the model's: which cycle counts as the first is log entry 9, the latency `k` is that of log entry 2, and the effect
at the transfer edge is log entry 10. With `k` cycles of latency, `resp_valid` is 0 after each of the first `k` edges, 1 with the response after the next one, and 0 again
with `req_ready` = 1 after the one after that; the registers keep the request's effect, and what else the host presents on
the way is not taken. -/
def Obligations.EveryTransferIsAnsweredOnce : Prop :=
  ∀ (s t : State) (req : Request) (rest : List Pins) (resp : Response),
    s.port = .ready → s.pins = Pins.present req :: rest → (∀ p ∈ rest, p.rstN = true) →
    perform req { s with pins := rest, freeIndex := s.freeIndex + 1 } = .next (t, resp) →
    ∃ k, k = req.latency t.regs.padcnt ∧ 1 ≤ k ∧
      (∀ j, 1 ≤ j → j ≤ k → ∃ u, runEdges j s = .next u ∧ u.regs = t.regs ∧
        (u.outPins true).respValid = false ∧ (u.outPins true).reqReady = false) ∧
      (∃ u, runEdges (k + 1) s = .next u ∧ u.regs = t.regs ∧ u.outPins true = ⟨false, true, resp.err, resp.rdata⟩) ∧
      (∃ u, runEdges (k + 2) s = .next u ∧ u.regs = t.regs ∧
        (u.outPins true).respValid = false ∧ (u.outPins true).reqReady = true)

/-- R20, R56, R197: the registers change only at an edge that resets the block or transfers a write of CMD. -/
def Obligations.RegistersChangeOnlyByCommandOrReset : Prop :=
  ∀ s t : State, step s = .next t → t.regs ≠ s.regs →
    s.nextPins.rstN = false ∨
      (s.port = .ready ∧ s.nextPins.reqValid = true ∧ s.nextPins.reqWrite = true ∧ s.nextPins.reqAddr = 0x00 ∧
        ∃ u, execWord s.nextPins.reqWdata s = .next u ∧ t.regs = u.regs)

/-- R190: a step leaves ERROR only by a valid START, which goes to ACTIVE, or by CLEAR or reset, which go to IDLE. -/
def Obligations.OnlyStartClearResetLeaveError : Prop :=
  ∀ s t : State, step s = .next t → s.regs.state = .error → t.regs.state ≠ .error →
    (s.nextPins.rstN = false ∧ t.regs.state = .idle) ∨
      (s.port = .ready ∧ s.nextPins.reqValid = true ∧ s.nextPins.reqWrite = true ∧ s.nextPins.reqAddr = 0x00 ∧
        ((∃ wsel, decode s.nextPins.reqWdata = .legal (.start wsel) ∧ t.regs.state = .active) ∨
          (decode s.nextPins.reqWdata = .legal .clear ∧ t.regs.state = .idle)))

/-- R32: no step, a reset edge included, changes MAXLEN. -/
def Obligations.EveryStepKeepsMaxlen : Prop :=
  ∀ s t : State, step s = .next t → t.regs.maxlen = s.regs.maxlen

/-- A step stops in one case only, by refusal: at an edge with `rst_n` = 1 before the first reset (R213; the refusal is the
model's, log entry 6). Every other step, from every state, answers a next state (R219). -/
def Obligations.StepStopsOnlyBeforeFirstReset : Prop :=
  ∀ s : State,
    (s.port = .unreset ∧ s.nextPins.rstN = true → step s = .refused .beforeFirstReset) ∧
    (s.port ≠ .unreset ∨ s.nextPins.rstN = false → ∃ t, step s = .next t ∧ t.port ≠ .unreset)

/-! ### Invariants -/

/-- R34 with R25 to R32 holds right after reset. -/
def Obligations.ResetStateMeetsInvariant : Prop := State.reset.Inv

/-- R34 with R25 to R32: every step keeps the invariant. -/
def Obligations.EveryStepKeepsInvariant : Prop :=
  ∀ s t : State, s.Inv → step s = .next t → t.Inv

/-- R28: a step never makes COUNT wrap. From a state that meets the invariant, a reset edge and an edge that takes a START or a
CLEAR leave COUNT = 0, and every other step leaves it what it was or at most 3 more, as natural numbers, and never above
MAX_LEN + 3. -/
def Obligations.CountNeverWraps : Prop :=
  ∀ s t : State, s.Inv → step s = .next t →
    (s.ClearsAtNextEdge → t.regs.count = 0) ∧
    (¬ s.ClearsAtNextEdge →
      s.regs.count.toNat ≤ t.regs.count.toNat ∧ t.regs.count.toNat ≤ s.regs.count.toNat + 3 ∧
      t.regs.count.toNat ≤ s.regs.maxlen.toNat + 3)

/-- The registers are explained by bytes: right after reset they are, and every step keeps it that in ACTIVE they are those
of some at most MAX_LEN bytes pushed (R118), in DONE those of some such bytes checksummed (R160), and in ERROR those of one
of these at the moment of the error (R180). -/
def Obligations.EveryStepKeepsHistory : Prop :=
  (∀ pins, Regs.History { State.reset with pins := pins }.regs) ∧
  ∀ s t : State, s.regs.History → step s = .next t → t.regs.History

/-- R27, R160: in every state a host can bring a block to from reset, if STATE = DONE then RESULT is the checksum, at the
width in WIDTH, of some byte sequence of at most MAX_LEN bytes, COUNT is its padded length, and PADCNT its padding. -/
def Obligations.DoneAlwaysMeansChecksum : Prop :=
  ∀ s : State, Reachable s → s.regs.state = .done →
    ∃ S : List Byte, S.length ≤ s.regs.maxlen.toNat ∧
      s.regs.result.toNat = checksum s.regs.width S ∧
      s.regs.count.toNat = (padded s.regs.width S).length ∧
      s.regs.padcnt.toNat = padLen s.regs.width S.length

/-! ### The reference functions -/

/-- R101, R102, R103: padding at each width, and the padded length is the least multiple of L that is at least |S| (R104). -/
def Obligations.PaddingAtEachWidth : Prop :=
  ∀ S : List Byte,
    padded .w8 S = S ∧
    padded .w16 S = (if S.length % 2 = 1 then S ++ [0x58] else S) ∧
    (∃ p, padded .w32 S = S ++ List.replicate p 0x58 ∧ (S.length + p) % 4 = 0 ∧
      ∀ q, (S.length + q) % 4 = 0 → p ≤ q)

/-- R104: the padded length is a multiple of L, at least |S|, and the least such. -/
def Obligations.PaddedLengthIsLeastMultiple : Prop :=
  ∀ (w : Width) (S : List Byte),
    (padded w S).length = S.length + (w.lanes - S.length % w.lanes) % w.lanes ∧
    (padded w S).length % w.lanes = 0 ∧ S.length ≤ (padded w S).length ∧
    ∀ m, m % w.lanes = 0 → S.length ≤ m → (padded w S).length ≤ m

/-- R105: the original bytes keep their positions and values, and every byte after them is 0x58. -/
def Obligations.PaddingKeepsTheOriginalBytes : Prop :=
  ∀ (w : Width) (S : List Byte) (i : Nat),
    (i < S.length → (padded w S)[i]? = S[i]?) ∧
    (S.length ≤ i → i < (padded w S).length → (padded w S)[i]? = some 0x58)

/-- R112: the one function of W is Checksum8, Checksum16 and Checksum32 at the three widths. -/
def Obligations.ThreeChecksumsAreOneFunction : Prop :=
  ∀ S : List Byte,
    checksum .w8 S = checksum8 S ∧ checksum .w16 S = checksum16 S ∧ checksum .w32 S = checksum32 S

/-- R113: the checksum is below 2^W for every byte sequence, and each word of a sequence is below 2^W (R106). -/
def Obligations.ChecksumAndWordsAreInRange : Prop :=
  ∀ (w : Width) (S : List Byte),
    checksum w S ≤ 2 ^ w.bits - 1 ∧ checksum8 S ≤ 255 ∧ checksum16 S ≤ 65535 ∧ checksum32 S ≤ 2 ^ 32 - 1 ∧
    ∀ k, wordAt w S k < 2 ^ w.bits

/-- R115: 2^W divides 2^32, so a sum, the sum mod 2^32, and the sum kept mod 2^32 at every addition are the same mod 2^W. The
block's ACC is such a sum: after START and the assembly of any bytes it is the wrapped sum of their complete words, equal to
their exact sum mod 2^W, and after the assembly of Pad(S, W) its low W bits are the checksum of S, for any length. -/
def Obligations.WrappingAccumulatorIsExact : Prop :=
  (∀ (w : Width) (xs : List Nat), 2 ^ w.bits ∣ 2 ^ 32 ∧
    xs.sum % 2 ^ w.bits = xs.sum % 2 ^ 32 % 2 ^ w.bits ∧
    xs.sum % 2 ^ 32 % 2 ^ w.bits = wrappedSum xs % 2 ^ w.bits) ∧
  (∀ (r : Regs) (w : Width) (T : List Byte),
    (T.foldl (fun x b => x.assemble b) (r.init w)).acc.toNat =
      wrappedSum ((List.range (T.length / w.lanes)).map (wordAt w T)) ∧
    (T.foldl (fun x b => x.assemble b) (r.init w)).acc.toNat % 2 ^ w.bits =
      wordSum w T (T.length / w.lanes) % 2 ^ w.bits) ∧
  ∀ (r : Regs) (w : Width) (S : List Byte),
    (((padded w S).foldl (fun x b => x.assemble b) (r.init w)).acc &&& w.mask).toNat = checksum w S

/-! ### What the commands compute -/

/-- R118, the assembler invariant: after START and the assembly of the bytes T, COUNT, LANE, ACC and WBUF are what the rule
gives, and nothing else has changed since START. -/
def Obligations.AssemblerInvariant : Prop :=
  ∀ (r : Regs) (w : Width) (T : List Byte),
    T.foldl (fun x b => x.assemble b) (r.init w) =
      { r.init w with
        count := BitVec.ofNat 32 T.length
        lane := BitVec.ofNat 2 (T.length % w.lanes)
        acc := BitVec.ofNat 32 (wordSum w T (T.length / w.lanes) % 2 ^ 32)
        wbuf := BitVec.ofNat 32 (groupSum w T (T.length / w.lanes * w.lanes) (T.length % w.lanes)) }

/-- R160: from any state, START W, one PUSH per byte of S and FINAL end in DONE with RESULT = ChecksumW(S), COUNT =
|Pad(S, W)|, PADCNT = padlen(|S|, W), ACC the sum of the words mod 2^32, and LANE and WBUF 0. -/
def Obligations.CommandsComputeTheChecksum : Prop :=
  ∀ (s : State) (w : Width) (S : List Byte),
    s.regs.maxlen.toNat ≤ 2 ^ 32 - 4 → S.length ≤ s.regs.maxlen.toNat →
    ∃ t, execWords ((computation w S).map Line.toWord) s = .next t ∧
      t = { s with regs := t.regs } ∧
      t.regs.state = .done ∧ t.regs.ecode = .noError ∧ t.regs.width = w ∧
      t.regs.result.toNat = checksum w S ∧
      t.regs.count.toNat = S.length + padLen w S.length ∧
      t.regs.count.toNat = (padded w S).length ∧
      t.regs.padcnt.toNat = padLen w S.length ∧
      t.regs.lane = 0 ∧ t.regs.wbuf = 0 ∧
      t.regs.acc.toNat = wordSum w (padded w S) ((padded w S).length / w.lanes) % 2 ^ 32 ∧
      t.regs.maxlen = s.regs.maxlen

/-- R91 with R160 on the port: the host program `CKSUM w, "s"` gets no bus error in any state and reads back STATUS in DONE
with the width and the padding count, then the checksum, then the padded length. -/
def Obligations.CksumProgramReadsTheChecksum : Prop :=
  ∀ (s : State) (w : Width) (S : List Byte),
    s.regs.maxlen.toNat ≤ 2 ^ 32 - 4 → S.length ≤ s.regs.maxlen.toNat →
    ∃ t, performAll ((cksum w S).map HostOp.request) s = .next (t,
      List.replicate (S.length + 2) ⟨false, 0⟩ ++
        [⟨false, BitVec.ofNat 32 (2 + 4 * w.wsel.toNat + 64 * padLen w S.length)⟩,
         ⟨false, BitVec.ofNat 32 (checksum w S)⟩,
         ⟨false, BitVec.ofNat 32 (padded w S).length⟩])

/-- R161: the computation of S once more ends in the same state; padding twice is padding once; and a host that pads first,
where MAX_LEN leaves room for the padded bytes, ends in the same state but for PADCNT = 0. -/
def Obligations.PaddingFirstGivesTheSameResult : Prop :=
  ∀ (s : State) (w : Width) (S : List Byte),
    padded w (padded w S) = padded w S ∧
    ∃ t, execWords ((computation w S).map Line.toWord) s = .next t ∧
      execWords ((computation w S).map Line.toWord) t = .next t ∧
      ((padded w S).length ≤ s.regs.maxlen.toNat →
        execWords ((computation w (padded w S)).map Line.toWord) s =
          .next { t with regs := { t.regs with padcnt := 0 } })

/-- R35: nothing carries over. Two blocks with the same MAX_LEN that get the same START and then the same words, of whatever
kind, end with the same registers, whatever was in them before. -/
def Obligations.NothingCarriesOverAStart : Prop :=
  ∀ (s₁ s₂ t₁ t₂ : State) (w : Width) (vs : List Word), s₁.regs.maxlen = s₂.regs.maxlen →
    execWords ((Line.start w).toWord :: vs) s₁ = .next t₁ → execWords ((Line.start w).toWord :: vs) s₂ = .next t₂ →
    t₁.regs = t₂.regs

/-- R91: `RESTART w` ends in the same state as `START w` alone. -/
def Obligations.RestartEqualsStart : Prop :=
  ∀ (s : State) (w : Width), ∃ t,
    execWords ((restart w).map Line.toWord) s = .next t ∧ execWords [(Line.start w).toWord] s = .next t
end

