-- ==== Sys2Proof/Laws/Operands.lean ====
section
/-! SUPPORT. What the quantities of a width are as numbers. -/

namespace Sys2Proof.Machine

theorem Width.lanes_pos (w : Width) : 0 < w.lanes := by cases w <;> decide

theorem Width.lanes_le_four (w : Width) : w.lanes ≤ 4 := by cases w <;> decide

theorem Width.bits_eq_eight_mul_lanes (w : Width) : w.bits = 8 * w.lanes := by cases w <;> rfl

/-- 2^W divides 2^32 (40_datapath.md R115). -/
theorem Width.pow_bits_dvd (w : Width) : 2 ^ w.bits ∣ 2 ^ 32 := by cases w <;> decide

theorem Width.mask_toNat (w : Width) : w.mask.toNat = 2 ^ w.bits - 1 := by cases w <;> rfl

/-- Masking to W bits is reduction mod 2^W. -/
theorem Width.and_mask_toNat (w : Width) (a : Word) : (a &&& w.mask).toNat = a.toNat % 2 ^ w.bits := by
  rw [BitVec.toNat_and, w.mask_toNat, Nat.and_two_pow_sub_one_eq_mod]

@[simp] theorem Width.ofWsel_wsel (w : Width) : Width.ofWsel w.wsel = some w := by cases w <;> rfl

theorem Width.wsel_of_ofWsel {wsel : BitVec 2} {w : Width} (h : Width.ofWsel wsel = some w) : w.wsel = wsel := by
  revert wsel w; decide

theorem Width.ofWsel_eq_none (wsel : BitVec 2) : Width.ofWsel wsel = none ↔ wsel = 3 := by
  revert wsel; decide

theorem zext32_toNat (b : Byte) : (zext32 b).toNat = b.toNat := by
  simp [zext32]; omega

end Sys2Proof.Machine
end

