-- ==== Sys2Proof/Laws/State.lean ====
section
/-! SUPPORT. One lemma per field per update of the state, each true by rfl, so that no proof unfolds a record update. -/

namespace Sys2Proof.Machine

@[simp] theorem State.mapRegs_regs (f : Regs → Regs) (s : State) : (s.mapRegs f).regs = f s.regs := rfl
@[simp] theorem State.mapRegs_port (f : Regs → Regs) (s : State) : (s.mapRegs f).port = s.port := rfl
@[simp] theorem State.mapRegs_pins (f : Regs → Regs) (s : State) : (s.mapRegs f).pins = s.pins := rfl
@[simp] theorem State.mapRegs_freeIndex (f : Regs → Regs) (s : State) : (s.mapRegs f).freeIndex = s.freeIndex := rfl

@[simp] theorem State.raiseError_regs (c : ErrorCode) (s : State) : (s.raiseError c).regs = s.regs.raiseError c := rfl
@[simp] theorem State.raiseError_port (c : ErrorCode) (s : State) : (s.raiseError c).port = s.port := rfl
@[simp] theorem State.raiseError_pins (c : ErrorCode) (s : State) : (s.raiseError c).pins = s.pins := rfl
@[simp] theorem State.raiseError_freeIndex (c : ErrorCode) (s : State) : (s.raiseError c).freeIndex = s.freeIndex := rfl

@[simp] theorem State.withPort_regs (p : Port) (s : State) : (s.withPort p).regs = s.regs := rfl
@[simp] theorem State.withPort_port (p : Port) (s : State) : (s.withPort p).port = p := rfl
@[simp] theorem State.withPort_pins (p : Port) (s : State) : (s.withPort p).pins = s.pins := rfl
@[simp] theorem State.withPort_freeIndex (p : Port) (s : State) : (s.withPort p).freeIndex = s.freeIndex := rfl

@[simp] theorem State.sampled_regs (s : State) : s.sampled.regs = s.regs := rfl
@[simp] theorem State.sampled_port (s : State) : s.sampled.port = s.port := rfl
@[simp] theorem State.sampled_pins (s : State) : s.sampled.pins = s.pins.tail := rfl
@[simp] theorem State.sampled_freeIndex (s : State) : s.sampled.freeIndex = s.freeIndex + 1 := rfl

@[simp] theorem State.resetEdge_regs (s : State) : s.resetEdge.regs = Regs.reset s.regs.maxlen := rfl
@[simp] theorem State.resetEdge_port (s : State) : s.resetEdge.port = .inReset := rfl
@[simp] theorem State.resetEdge_pins (s : State) : s.resetEdge.pins = s.pins := rfl
@[simp] theorem State.resetEdge_freeIndex (s : State) : s.resetEdge.freeIndex = s.freeIndex := rfl

@[simp] theorem Regs.reset_state (m : Word) : (Regs.reset m).state = .idle := rfl
@[simp] theorem Regs.reset_width (m : Word) : (Regs.reset m).width = .w8 := rfl
@[simp] theorem Regs.reset_lane (m : Word) : (Regs.reset m).lane = 0 := rfl
@[simp] theorem Regs.reset_padcnt (m : Word) : (Regs.reset m).padcnt = 0 := rfl
@[simp] theorem Regs.reset_ecode (m : Word) : (Regs.reset m).ecode = .noError := rfl
@[simp] theorem Regs.reset_result (m : Word) : (Regs.reset m).result = 0 := rfl
@[simp] theorem Regs.reset_count (m : Word) : (Regs.reset m).count = 0 := rfl
@[simp] theorem Regs.reset_acc (m : Word) : (Regs.reset m).acc = 0 := rfl
@[simp] theorem Regs.reset_wbuf (m : Word) : (Regs.reset m).wbuf = 0 := rfl
@[simp] theorem Regs.reset_maxlen (m : Word) : (Regs.reset m).maxlen = m := rfl

@[simp] theorem Regs.init_state (w : Width) (r : Regs) : (r.init w).state = .active := rfl
@[simp] theorem Regs.init_width (w : Width) (r : Regs) : (r.init w).width = w := rfl
@[simp] theorem Regs.init_lane (w : Width) (r : Regs) : (r.init w).lane = 0 := rfl
@[simp] theorem Regs.init_padcnt (w : Width) (r : Regs) : (r.init w).padcnt = 0 := rfl
@[simp] theorem Regs.init_ecode (w : Width) (r : Regs) : (r.init w).ecode = .noError := rfl
@[simp] theorem Regs.init_result (w : Width) (r : Regs) : (r.init w).result = 0 := rfl
@[simp] theorem Regs.init_count (w : Width) (r : Regs) : (r.init w).count = 0 := rfl
@[simp] theorem Regs.init_acc (w : Width) (r : Regs) : (r.init w).acc = 0 := rfl
@[simp] theorem Regs.init_wbuf (w : Width) (r : Regs) : (r.init w).wbuf = 0 := rfl
@[simp] theorem Regs.init_maxlen (w : Width) (r : Regs) : (r.init w).maxlen = r.maxlen := rfl

@[simp] theorem Regs.clear_eq (r : Regs) : r.clear = Regs.reset r.maxlen := rfl

@[simp] theorem Regs.latchResult_state (r : Regs) : r.latchResult.state = .done := rfl
@[simp] theorem Regs.latchResult_width (r : Regs) : r.latchResult.width = r.width := rfl
@[simp] theorem Regs.latchResult_lane (r : Regs) : r.latchResult.lane = r.lane := rfl
@[simp] theorem Regs.latchResult_padcnt (r : Regs) : r.latchResult.padcnt = r.padcnt := rfl
@[simp] theorem Regs.latchResult_ecode (r : Regs) : r.latchResult.ecode = r.ecode := rfl
@[simp] theorem Regs.latchResult_result (r : Regs) : r.latchResult.result = r.acc &&& r.width.mask := rfl
@[simp] theorem Regs.latchResult_count (r : Regs) : r.latchResult.count = r.count := rfl
@[simp] theorem Regs.latchResult_acc (r : Regs) : r.latchResult.acc = r.acc := rfl
@[simp] theorem Regs.latchResult_wbuf (r : Regs) : r.latchResult.wbuf = r.wbuf := rfl
@[simp] theorem Regs.latchResult_maxlen (r : Regs) : r.latchResult.maxlen = r.maxlen := rfl

@[simp] theorem State.nextPins_cons (s : State) (p : Pins) (rest : List Pins) (h : s.pins = p :: rest) :
    s.nextPins = p := by simp [State.nextPins, h]

@[simp] theorem State.nextPins_nil (s : State) (h : s.pins = []) : s.nextPins = Pins.quiet := by
  simp [State.nextPins, h]

@[simp] theorem Pins.request_present (req : Request) : (Pins.present req).request = req := rfl
@[simp] theorem Pins.rstN_present (req : Request) : (Pins.present req).rstN = true := rfl
@[simp] theorem Pins.reqValid_present (req : Request) : (Pins.present req).reqValid = true := rfl
@[simp] theorem Pins.rstN_quiet : Pins.quiet.rstN = true := rfl
@[simp] theorem Pins.reqValid_quiet : Pins.quiet.reqValid = false := rfl

end Sys2Proof.Machine
end

