-- ==== Sys2Proof/Laws/Ops.lean ====
section
/-! SUPPORT. What each shared operation on the registers can do, said once. -/

namespace Sys2Proof.Machine

/-! ### Entry into ERROR -/

theorem Regs.raiseError_of_error (c : ErrorCode) (r : Regs) (h : r.state = .error) : r.raiseError c = r := by
  simp [Regs.raiseError, h]

theorem Regs.raiseError_of_ne (c : ErrorCode) (r : Regs) (h : r.state ≠ .error) :
    r.raiseError c = { r with state := .error, ecode := c } := by
  cases hs : r.state <;> simp_all [Regs.raiseError]

@[simp] theorem Regs.raiseError_state (c : ErrorCode) (r : Regs) : (r.raiseError c).state = .error := by
  cases hs : r.state <;> simp [Regs.raiseError, hs]

@[simp] theorem Regs.raiseError_maxlen (c : ErrorCode) (r : Regs) : (r.raiseError c).maxlen = r.maxlen := by
  cases hs : r.state <;> simp [Regs.raiseError, hs]

@[simp] theorem Regs.raiseError_width (c : ErrorCode) (r : Regs) : (r.raiseError c).width = r.width := by
  cases hs : r.state <;> simp [Regs.raiseError, hs]

@[simp] theorem Regs.raiseError_lane (c : ErrorCode) (r : Regs) : (r.raiseError c).lane = r.lane := by
  cases hs : r.state <;> simp [Regs.raiseError, hs]

@[simp] theorem Regs.raiseError_padcnt (c : ErrorCode) (r : Regs) : (r.raiseError c).padcnt = r.padcnt := by
  cases hs : r.state <;> simp [Regs.raiseError, hs]

@[simp] theorem Regs.raiseError_result (c : ErrorCode) (r : Regs) : (r.raiseError c).result = r.result := by
  cases hs : r.state <;> simp [Regs.raiseError, hs]

@[simp] theorem Regs.raiseError_count (c : ErrorCode) (r : Regs) : (r.raiseError c).count = r.count := by
  cases hs : r.state <;> simp [Regs.raiseError, hs]

@[simp] theorem Regs.raiseError_acc (c : ErrorCode) (r : Regs) : (r.raiseError c).acc = r.acc := by
  cases hs : r.state <;> simp [Regs.raiseError, hs]

@[simp] theorem Regs.raiseError_wbuf (c : ErrorCode) (r : Regs) : (r.raiseError c).wbuf = r.wbuf := by
  cases hs : r.state <;> simp [Regs.raiseError, hs]

/-! ### The assembler -/

/-- The byte that completes a word (40_datapath.md R107). -/
theorem Regs.assemble_of_last (b : Byte) (r : Regs) (h : r.lane.toNat = r.width.lanes - 1) :
    r.assemble b = { r with count := r.count + 1, acc := r.acc + r.wordWith b, wbuf := 0, lane := 0 } := by
  simp [Regs.assemble, h]

/-- A byte that does not complete a word (40_datapath.md R107). -/
theorem Regs.assemble_of_not_last (b : Byte) (r : Regs) (h : r.lane.toNat ≠ r.width.lanes - 1) :
    r.assemble b = { r with count := r.count + 1, wbuf := r.wordWith b, lane := r.lane + 1 } := by
  simp [Regs.assemble, h]

@[simp] theorem Regs.assemble_state (b : Byte) (r : Regs) : (r.assemble b).state = r.state := by
  unfold Regs.assemble; split <;> rfl

@[simp] theorem Regs.assemble_width (b : Byte) (r : Regs) : (r.assemble b).width = r.width := by
  unfold Regs.assemble; split <;> rfl

@[simp] theorem Regs.assemble_padcnt (b : Byte) (r : Regs) : (r.assemble b).padcnt = r.padcnt := by
  unfold Regs.assemble; split <;> rfl

@[simp] theorem Regs.assemble_ecode (b : Byte) (r : Regs) : (r.assemble b).ecode = r.ecode := by
  unfold Regs.assemble; split <;> rfl

@[simp] theorem Regs.assemble_result (b : Byte) (r : Regs) : (r.assemble b).result = r.result := by
  unfold Regs.assemble; split <;> rfl

@[simp] theorem Regs.assemble_maxlen (b : Byte) (r : Regs) : (r.assemble b).maxlen = r.maxlen := by
  unfold Regs.assemble; split <;> rfl

@[simp] theorem Regs.assemble_count (b : Byte) (r : Regs) : (r.assemble b).count = r.count + 1 := by
  unfold Regs.assemble; split <;> rfl

/-- LANE stays below L (10_state.md R34). -/
theorem Regs.assemble_lane_lt (b : Byte) (r : Regs) (h : r.lane.toNat < r.width.lanes) :
    (r.assemble b).lane.toNat < r.width.lanes := by
  have h4 := r.width.lanes_le_four
  have h0 := r.width.lanes_pos
  by_cases hl : r.lane.toNat = r.width.lanes - 1
  · rw [r.assemble_of_last b hl]; simpa using h0
  · rw [r.assemble_of_not_last b hl]; simp; omega

/-- LANE counts mod L (40_datapath.md R107, R117). -/
theorem Regs.assemble_lane (b : Byte) (r : Regs) (h : r.lane.toNat < r.width.lanes) :
    (r.assemble b).lane.toNat = (r.lane.toNat + 1) % r.width.lanes := by
  have h4 := r.width.lanes_le_four
  have h0 := r.width.lanes_pos
  by_cases hl : r.lane.toNat = r.width.lanes - 1
  · rw [r.assemble_of_last b hl, hl, Nat.sub_add_cancel h0]; simp
  · rw [r.assemble_of_not_last b hl, Nat.mod_eq_of_lt (by omega)]; simp; omega

theorem Regs.shift_le (r : Regs) : r.shift ≤ 24 := by
  have := r.width.lanes_le_four
  simp only [Regs.shift]; omega

/-- The word with a byte in its place, as a number (40_datapath.md R107). -/
theorem Regs.wordWith_toNat (b : Byte) (r : Regs) :
    (r.wordWith b).toNat = r.wbuf.toNat ||| (b.toNat <<< r.shift) := by
  have hb : b.toNat <<< r.shift < 2 ^ 32 := by
    rw [Nat.shiftLeft_eq]
    calc b.toNat * 2 ^ r.shift ≤ b.toNat * 2 ^ 24 :=
          Nat.mul_le_mul_left _ (Nat.pow_le_pow_right (by decide) r.shift_le)
      _ < 2 ^ 32 := by have := b.isLt; omega
  simp only [Regs.wordWith, BitVec.toNat_or, BitVec.toNat_shiftLeft, zext32_toNat]
  rw [Nat.mod_eq_of_lt hb]

/-! ### The padding controller -/

/-- The loop is done (40_datapath.md R117). -/
theorem Regs.padLoop_of_lane_zero (fuel : Nat) (p : BitVec 2) (r : Regs) (h : r.lane = 0) :
    r.padLoop fuel p = { r with padcnt := p } := by
  cases fuel <;> simp [Regs.padLoop, h]

/-- One more round of the loop (40_datapath.md R117). -/
theorem Regs.padLoop_of_lane_ne_zero (fuel : Nat) (p : BitVec 2) (r : Regs) (h : r.lane ≠ 0) :
    r.padLoop (fuel + 1) p = (r.assemble Config.padByte).padLoop fuel (p + 1) := by
  rw [Regs.padLoop, if_neg h]

@[simp] theorem Regs.padLoop_frame (fuel : Nat) (p : BitVec 2) (r : Regs) :
    (r.padLoop fuel p).state = r.state ∧ (r.padLoop fuel p).width = r.width ∧ (r.padLoop fuel p).ecode = r.ecode ∧
      (r.padLoop fuel p).result = r.result ∧ (r.padLoop fuel p).maxlen = r.maxlen := by
  induction fuel generalizing p r with
  | zero => simp [Regs.padLoop]
  | succ n ih =>
    unfold Regs.padLoop
    split
    · simp
    · simpa using ih (p + 1) (r.assemble Config.padByte)

@[simp] theorem Regs.pad_state (r : Regs) : r.pad.state = r.state := (r.padLoop_frame 3 0).1
@[simp] theorem Regs.pad_width (r : Regs) : r.pad.width = r.width := (r.padLoop_frame 3 0).2.1
@[simp] theorem Regs.pad_ecode (r : Regs) : r.pad.ecode = r.ecode := (r.padLoop_frame 3 0).2.2.1
@[simp] theorem Regs.pad_result (r : Regs) : r.pad.result = r.result := (r.padLoop_frame 3 0).2.2.2.1
@[simp] theorem Regs.pad_maxlen (r : Regs) : r.pad.maxlen = r.maxlen := (r.padLoop_frame 3 0).2.2.2.2

/-- With LANE = 0 there is nothing to pad (40_datapath.md R117). -/
theorem Regs.pad_of_lane_zero (r : Regs) (h : r.lane = 0) : r.pad = { r with padcnt := 0 } :=
  r.padLoop_of_lane_zero 3 0 h

/-- `n` bytes of padding through the assembler. -/
def Regs.assembleMany (n : Nat) (r : Regs) : Regs :=
  (List.replicate n Config.padByte).foldl (fun x b => x.assemble b) r

@[simp] theorem Regs.assembleMany_zero (r : Regs) : r.assembleMany 0 = r := rfl

@[simp] theorem Regs.assembleMany_succ (n : Nat) (r : Regs) :
    r.assembleMany (n + 1) = (r.assemble Config.padByte).assembleMany n := by
  simp [Regs.assembleMany, List.replicate_succ]

/-- The loop with enough fuel assembles as many padding bytes as the word lacks, and counts them (40_datapath.md R117). -/
theorem Regs.padLoop_eq_assembleMany (fuel : Nat) (p : BitVec 2) (r : Regs) (hl : r.lane.toNat < r.width.lanes)
    (hf : (r.width.lanes - r.lane.toNat) % r.width.lanes ≤ fuel) :
    r.padLoop fuel p =
      { r.assembleMany ((r.width.lanes - r.lane.toNat) % r.width.lanes) with
        padcnt := p + BitVec.ofNat 2 ((r.width.lanes - r.lane.toNat) % r.width.lanes) } := by
  induction fuel generalizing p r with
  | zero =>
    have h0 : (r.width.lanes - r.lane.toNat) % r.width.lanes = 0 := by omega
    rw [h0]; simp [Regs.padLoop]
  | succ n ih =>
    by_cases h : r.lane = 0
    · rw [r.padLoop_of_lane_zero _ _ h]; simp [h]
    · have hne : r.lane.toNat ≠ 0 := fun e => h (BitVec.eq_of_toNat_eq (by simpa using e))
      have hk : (r.width.lanes - r.lane.toNat) % r.width.lanes
          = (r.width.lanes - (r.assemble Config.padByte).lane.toNat) % r.width.lanes + 1 := by
        rw [r.assemble_lane _ hl, Nat.mod_eq_of_lt (by omega : r.width.lanes - r.lane.toNat < r.width.lanes)]
        rcases Nat.lt_or_ge (r.lane.toNat + 1) r.width.lanes with h1 | h1
        · rw [Nat.mod_eq_of_lt h1, Nat.mod_eq_of_lt (by omega)]; omega
        · rw [show r.lane.toNat + 1 = r.width.lanes by omega]; simp; omega
      rw [r.padLoop_of_lane_ne_zero _ _ h, ih _ _ (by simpa using r.assemble_lane_lt _ hl) (by simp; omega)]
      rw [hk]
      simp [BitVec.ofNat_add, BitVec.add_assoc, BitVec.add_comm]

/-- `pad()` as so many assembled bytes and their count (40_datapath.md R117). -/
theorem Regs.pad_eq_assembleMany (r : Regs) (hl : r.lane.toNat < r.width.lanes) :
    r.pad =
      { r.assembleMany ((r.width.lanes - r.lane.toNat) % r.width.lanes) with
        padcnt := BitVec.ofNat 2 ((r.width.lanes - r.lane.toNat) % r.width.lanes) } := by
  have h4 := r.width.lanes_le_four
  have hm := Nat.mod_lt (r.width.lanes - r.lane.toNat) r.width.lanes_pos
  rw [Regs.pad, r.padLoop_eq_assembleMany 3 0 hl (by omega)]
  simp

end Sys2Proof.Machine
end

