-- ==== Sys2Proof/Laws/Reference.lean ====
section
/-! SUPPORT. The reference functions, one byte or one word more at a time. -/

namespace Sys2Proof.Machine

/-! ### Padding -/

@[simp] theorem padded_length (w : Width) (S : List Byte) : (padded w S).length = S.length + padLen w S.length := by
  simp [padded]

theorem padLen_lt (w : Width) (n : Nat) : padLen w n < w.lanes := Nat.mod_lt _ w.lanes_pos

/-- The padded length is a multiple of L. -/
theorem add_padLen_mod (w : Width) (n : Nat) : (n + padLen w n) % w.lanes = 0 := by
  cases w <;> simp only [padLen, Width.lanes] <;> omega

/-- Nothing is padded exactly where the length is a multiple of L already. -/
theorem padLen_eq_zero (w : Width) (n : Nat) : padLen w n = 0 ↔ n % w.lanes = 0 := by
  cases w <;> simp only [padLen, Width.lanes] <;> omega

/-! ### Groups and words -/

@[simp] theorem groupSum_zero (w : Width) (T : List Byte) (k : Nat) : groupSum w T k 0 = 0 := rfl

theorem groupSum_succ (w : Width) (T : List Byte) (k n : Nat) :
    groupSum w T k (n + 1) = groupSum w T k n + byteAt T (k + n) <<< (8 * (w.lanes - 1 - n)) := by
  simp [groupSum, List.range_succ]

@[simp] theorem wordSum_zero (w : Width) (T : List Byte) : wordSum w T 0 = 0 := rfl

theorem wordSum_succ (w : Width) (T : List Byte) (q : Nat) :
    wordSum w T (q + 1) = wordSum w T q + wordAt w T q := by
  simp [wordSum, List.range_succ]

theorem byteAt_lt (T : List Byte) (i : Nat) : byteAt T i < 2 ^ 8 := (T.getD i 0).isLt

/-- A byte of T keeps its value when more bytes follow T. -/
theorem byteAt_append_left (T U : List Byte) (i : Nat) (h : i < T.length) : byteAt (T ++ U) i = byteAt T i := by
  simp [byteAt, List.getD_eq_getElem?_getD, List.getElem?_append_left h]

/-- The byte that follows T. -/
theorem byteAt_append_self (T : List Byte) (b : Byte) : byteAt (T ++ [b]) T.length = b.toNat := by
  simp [byteAt, List.getD_eq_getElem?_getD]

/-- A group within T is the same when more bytes follow T. -/
theorem groupSum_append_left (w : Width) (T U : List Byte) (k n : Nat) (h : k + n ≤ T.length) :
    groupSum w (T ++ U) k n = groupSum w T k n := by
  induction n with
  | zero => rfl
  | succ n ih =>
    rw [groupSum_succ, groupSum_succ, ih (by omega), byteAt_append_left T U (k + n) (by omega)]

/-- The words within T are the same when more bytes follow T. -/
theorem wordSum_append_left (w : Width) (T U : List Byte) (q : Nat) (h : q * w.lanes ≤ T.length) :
    wordSum w (T ++ U) q = wordSum w T q := by
  induction q with
  | zero => rfl
  | succ q ih =>
    have hq : q * w.lanes + w.lanes ≤ T.length := by rwa [Nat.succ_mul] at h
    rw [wordSum_succ, wordSum_succ, ih (by omega), wordAt, wordAt, groupSum_append_left w T U _ _ hq]

/-- The first n bytes of a group fill the top n of its L places: their sum is below 2^(8 L) and a multiple of the place that
comes next (10_state.md R30). -/
theorem groupSum_bounds (w : Width) (T : List Byte) (k n : Nat) (h : n ≤ w.lanes) :
    groupSum w T k n + 2 ^ (8 * (w.lanes - n)) ≤ 2 ^ (8 * w.lanes) ∧
      2 ^ (8 * (w.lanes - n)) ∣ groupSum w T k n := by
  induction n with
  | zero => simp
  | succ n ih =>
    obtain ⟨hlt, hdvd⟩ := ih (by omega)
    have hp : 2 ^ (8 * (w.lanes - n)) = 2 ^ 8 * 2 ^ (8 * (w.lanes - (n + 1))) := by
      rw [← Nat.pow_add]; congr 1; omega
    have hb := byteAt_lt T (k + n)
    rw [groupSum_succ, Nat.shiftLeft_eq, show w.lanes - 1 - n = w.lanes - (n + 1) by omega]
    constructor
    · have : byteAt T (k + n) * 2 ^ (8 * (w.lanes - (n + 1))) + 2 ^ (8 * (w.lanes - (n + 1)))
          ≤ 2 ^ 8 * 2 ^ (8 * (w.lanes - (n + 1))) := by
        rw [← Nat.succ_mul]; exact Nat.mul_le_mul_right _ hb
      omega
    · exact Nat.dvd_add (Dvd.dvd.trans (Dvd.intro_left (2 ^ 8) hp.symm) hdvd) (Nat.dvd_mul_left _ _)

/-- The next byte of a group goes below the bytes that are in: adding it is OR-ing it in (40_datapath.md R106, R107). -/
theorem groupSum_or (w : Width) (T : List Byte) (k n : Nat) (h : n < w.lanes) (b : Byte) :
    groupSum w T k n ||| (b.toNat <<< (8 * (w.lanes - 1 - n))) =
      groupSum w T k n + b.toNat <<< (8 * (w.lanes - 1 - n)) := by
  obtain ⟨-, c, hc⟩ := groupSum_bounds w T k n (by omega)
  have hb : b.toNat <<< (8 * (w.lanes - 1 - n)) < 2 ^ (8 * (w.lanes - n)) := by
    rw [Nat.shiftLeft_eq, show w.lanes - n = (w.lanes - 1 - n) + 1 by omega, Nat.mul_add, Nat.pow_add]
    rw [Nat.mul_comm (2 ^ (8 * (w.lanes - 1 - n)))]
    exact Nat.mul_lt_mul_of_pos_right b.isLt (Nat.two_pow_pos _)
  rw [hc, Nat.mul_comm, ← Nat.shiftLeft_eq, Nat.shiftLeft_add_eq_or_of_lt hb]

/-! ### Sums that wrap -/

/-- A sum taken mod 2^32 at every addition is the sum mod 2^32 (40_datapath.md R115). -/
theorem wrappedSum_eq (xs : List Nat) : wrappedSum xs = xs.sum % 2 ^ 32 := by
  have key : ∀ (xs : List Nat) (a : Nat),
      xs.foldl (fun acc x => (acc + x) % 2 ^ 32) (a % 2 ^ 32) = (a + xs.sum) % 2 ^ 32 := by
    intro xs
    induction xs with
    | nil => simp
    | cons x xs ih => intro a; rw [List.foldl_cons, Nat.mod_add_mod, ih, List.sum_cons, Nat.add_assoc]
  rw [wrappedSum, ← Nat.zero_mod (2 ^ 32), key, Nat.zero_add]

/-- Padding what is padded appends nothing (41_commands.md R161). -/
theorem padLen_padded (w : Width) (S : List Byte) : padLen w (padded w S).length = 0 := by
  rw [padLen_eq_zero, padded_length]; exact add_padLen_mod w S.length

end Sys2Proof.Machine
end

