-- ==== Sys2Proof/Laws/Computation.lean ====
section
/-! SUPPORT. One byte more of a computation: what the registers are after the bytes S and then one byte b. -/

namespace Sys2Proof.Machine

/-- START leaves the registers of a computation over no bytes. -/
theorem Regs.init_eq_regsAfterPushes (r : Regs) (w : Width) : r.init w = regsAfterPushes r.maxlen w [] := by
  simp [Regs.init, regsAfterPushes]

theorem regsAfterPushes_lane (m : Word) (w : Width) (S : List Byte) :
    (regsAfterPushes m w S).lane.toNat = S.length % w.lanes := by
  have := Nat.mod_lt S.length w.lanes_pos
  have := w.lanes_le_four
  simp [regsAfterPushes]; omega

/-- WBUF holds the partial word exactly: it fits in the register. -/
theorem regsAfterPushes_wbuf (m : Word) (w : Width) (S : List Byte) :
    (regsAfterPushes m w S).wbuf.toNat = groupSum w S (S.length / w.lanes * w.lanes) (S.length % w.lanes) := by
  have hr := Nat.mod_lt S.length w.lanes_pos
  have hb := (groupSum_bounds w S (S.length / w.lanes * w.lanes) (S.length % w.lanes) (by omega)).1
  have hp : 2 ^ (8 * w.lanes) ≤ 2 ^ 32 := Nat.pow_le_pow_right (by decide) (by have := w.lanes_le_four; omega)
  have h0 := Nat.two_pow_pos (8 * (w.lanes - S.length % w.lanes))
  simp only [regsAfterPushes, BitVec.toNat_ofNat]
  exact Nat.mod_eq_of_lt (by omega)

/-- The group that one byte more extends (40_datapath.md R106, R118). -/
theorem groupSum_snoc (w : Width) (S : List Byte) (b : Byte) :
    groupSum w (S ++ [b]) (S.length / w.lanes * w.lanes) (S.length % w.lanes + 1) =
      groupSum w S (S.length / w.lanes * w.lanes) (S.length % w.lanes)
        + b.toNat <<< (8 * (w.lanes - 1 - S.length % w.lanes)) := by
  have hd : S.length / w.lanes * w.lanes + S.length % w.lanes = S.length := Nat.div_add_mod' _ _
  rw [groupSum_succ, groupSum_append_left w S [b] _ _ (by omega), hd, byteAt_append_self]

/-- The word that one byte more makes of WBUF. -/
theorem regsAfterPushes_wordWith (m : Word) (w : Width) (S : List Byte) (b : Byte) :
    ((regsAfterPushes m w S).wordWith b).toNat =
      groupSum w (S ++ [b]) (S.length / w.lanes * w.lanes) (S.length % w.lanes + 1) := by
  rw [Regs.wordWith_toNat, regsAfterPushes_wbuf, Regs.shift, regsAfterPushes_lane, groupSum_snoc]
  exact groupSum_or w S _ _ (Nat.mod_lt _ w.lanes_pos) b

/-- The assembler takes the registers of S to those of S and one byte more (40_datapath.md R107, R118). -/
theorem regsAfterPushes_assemble (m : Word) (w : Width) (S : List Byte) (b : Byte) :
    (regsAfterPushes m w S).assemble b = regsAfterPushes m w (S ++ [b]) := by
  have hpos := w.lanes_pos
  have hr := Nat.mod_lt S.length hpos
  have hd : S.length / w.lanes * w.lanes + S.length % w.lanes = S.length := Nat.div_add_mod' _ _
  have hword : (regsAfterPushes m w S).wordWith b =
      BitVec.ofNat 32 (groupSum w (S ++ [b]) (S.length / w.lanes * w.lanes) (S.length % w.lanes + 1)) := by
    rw [← regsAfterPushes_wordWith m w S b]; simp
  by_cases hl : S.length % w.lanes = w.lanes - 1
  · have hq : (S.length + 1) / w.lanes = S.length / w.lanes + 1 := by
      rw [show S.length + 1 = (S.length / w.lanes + 1) * w.lanes by rw [Nat.succ_mul]; omega]
      exact Nat.mul_div_cancel _ hpos
    have hm : (S.length + 1) % w.lanes = 0 := by
      rw [show S.length + 1 = (S.length / w.lanes + 1) * w.lanes by rw [Nat.succ_mul]; omega]
      exact Nat.mul_mod_left _ _
    have hsum : wordSum w (S ++ [b]) (S.length / w.lanes + 1)
        = wordSum w S (S.length / w.lanes)
          + groupSum w (S ++ [b]) (S.length / w.lanes * w.lanes) (S.length % w.lanes + 1) := by
      rw [wordSum_succ, wordSum_append_left w S [b] _ (by omega), wordAt, hl, Nat.sub_add_cancel hpos]
    rw [Regs.assemble_of_last _ _ (by rw [regsAfterPushes_lane, hl]; rfl), hword]
    simp [regsAfterPushes, hq, hm, hsum, BitVec.ofNat_add]
  · have hm : (S.length + 1) % w.lanes = S.length % w.lanes + 1 := by
      rw [← hd, Nat.add_assoc, Nat.mul_add_mod_self_right, Nat.mod_eq_of_lt (by omega), hd]
    have hq : (S.length + 1) / w.lanes = S.length / w.lanes := by
      have h1 := Nat.div_add_mod' (S.length + 1) w.lanes
      rw [hm] at h1
      exact Nat.eq_of_mul_eq_mul_right hpos (by omega)
    rw [Regs.assemble_of_not_last _ _ (by rw [regsAfterPushes_lane]; exact hl), hword]
    simp [regsAfterPushes, hq, hm, BitVec.ofNat_add, wordSum_append_left w S [b] _ (by omega : S.length / w.lanes * w.lanes ≤ S.length)]

/-- The padding bytes of FINAL are bytes like any other (40_datapath.md R117). -/
theorem regsAfterPushes_assembleMany (m : Word) (w : Width) (S : List Byte) (n : Nat) :
    (regsAfterPushes m w S).assembleMany n = regsAfterPushes m w (S ++ List.replicate n Config.padByte) := by
  induction n generalizing S with
  | zero => simp
  | succ n ih => rw [Regs.assembleMany_succ, regsAfterPushes_assemble, ih]; simp [List.replicate_succ]

/-- FINAL takes the registers of S to those of its completed checksum (41_commands.md R146). -/
theorem regsAfterPushes_final (m : Word) (w : Width) (S : List Byte) :
    (regsAfterPushes m w S).pad.latchResult = regsAfterFinal m w S := by
  have hl := regsAfterPushes_lane m w S
  have hz := add_padLen_mod w S.length
  have hres : BitVec.ofNat 32 (wordSum w (padded w S) ((S.length + padLen w S.length) / w.lanes)) &&& w.mask
      = BitVec.ofNat 32 (checksum w S) := by
    apply BitVec.eq_of_toNat_eq
    rw [Width.and_mask_toNat, BitVec.toNat_ofNat, BitVec.toNat_ofNat, Nat.mod_mod_of_dvd _ w.pow_bits_dvd, checksum,
      padded_length]
    exact (Nat.mod_eq_of_lt (lt_of_lt_of_le (Nat.mod_lt _ (Nat.two_pow_pos _)) (by cases w <;> decide))).symm
  rw [Regs.pad_eq_assembleMany _ (by rw [hl]; exact Nat.mod_lt _ w.lanes_pos), hl,
    show (regsAfterPushes m w S).width = w from rfl, regsAfterPushes_assembleMany]
  change Regs.latchResult { regsAfterPushes m w (padded w S) with padcnt := BitVec.ofNat 2 (padLen w S.length) } = _
  simp [regsAfterPushes, Regs.latchResult, regsAfterFinal, hz, hres]

end Sys2Proof.Machine
end

