-- ==== Sys2Proof/Laws/Decode.lean ====
section
/-! SUPPORT. The fields of a word and the word of its fields as numbers (30_encoding.md R81), so that a question about
encodings is one about division and remainder. -/

namespace Sys2Proof

theorem opField_toNat (v : Word) : (opField v).toNat = v.toNat / 2 ^ 28 := by
  simp [opField, BitVec.extractLsb'_toNat, Nat.shiftRight_eq_div_pow]; omega

theorem rsvField_toNat (v : Word) : (rsvField v).toNat = v.toNat / 2 ^ 10 % 2 ^ 18 := by
  simp [rsvField, BitVec.extractLsb'_toNat, Nat.shiftRight_eq_div_pow]

theorem wselField_toNat (v : Word) : (wselField v).toNat = v.toNat / 2 ^ 8 % 2 ^ 2 := by
  simp [wselField, BitVec.extractLsb'_toNat, Nat.shiftRight_eq_div_pow]

theorem dataField_toNat (v : Word) : (dataField v).toNat = v.toNat % 2 ^ 8 := by
  simp [dataField, BitVec.extractLsb'_toNat]

theorem restField_toNat (v : Word) : (restField v).toNat = v.toNat % 2 ^ 28 := by
  simp [restField, BitVec.extractLsb'_toNat]

theorem aboveDataField_toNat (v : Word) : (aboveDataField v).toNat = v.toNat / 2 ^ 8 % 2 ^ 20 := by
  simp [aboveDataField, BitVec.extractLsb'_toNat, Nat.shiftRight_eq_div_pow]

/-- A word of format C as a number: its fields, each at its place. -/
theorem formatC_toNat (op : BitVec 4) (wsel : BitVec 2) (data : Byte) :
    (formatC op wsel data).toNat = op.toNat * 2 ^ 28 + wsel.toNat * 2 ^ 8 + data.toNat := by
  have hd := data.isLt
  have hw := wsel.isLt
  simp only [formatC, BitVec.toNat_append]
  rw [← Nat.shiftLeft_add_eq_or_of_lt hd, ← Nat.shiftLeft_add_eq_or_of_lt hw,
    ← Nat.shiftLeft_add_eq_or_of_lt (by simp)]
  simp only [Nat.shiftLeft_eq, BitVec.ofNat_eq_ofNat, BitVec.toNat_ofNat]
  omega

/-- The fields of a word of format C are the fields it was made of. -/
theorem fields_formatC (op : BitVec 4) (wsel : BitVec 2) (data : Byte) :
    opField (formatC op wsel data) = op ∧ rsvField (formatC op wsel data) = 0 ∧
      wselField (formatC op wsel data) = wsel ∧ dataField (formatC op wsel data) = data := by
  have ho := op.isLt
  have hd := data.isLt
  have hw := wsel.isLt
  refine ⟨?_, ?_, ?_, ?_⟩ <;> apply BitVec.eq_of_toNat_eq <;>
    simp only [opField_toNat, rsvField_toNat, wselField_toNat, dataField_toNat, formatC_toNat] <;> simp <;> omega

/-- The decoder as a question about the word's number (30_encoding.md R86): what the checks on the fields say of it. -/
theorem decode_legal_iff (v : Word) (i : Instr) :
    decode v = .legal i ↔
      match i with
      | .nop => v.toNat = 0
      | .start wsel => wsel.toNat < 3 ∧ v.toNat = 2 ^ 28 + wsel.toNat * 2 ^ 8
      | .push data => v.toNat = 2 * 2 ^ 28 + data.toNat
      | .final => v.toNat = 3 * 2 ^ 28
      | .clear => v.toNat = 4 * 2 ^ 28 := by
  have hv := v.isLt
  have h1 := opField_toNat v
  have h2 := rsvField_toNat v
  have h3 := wselField_toNat v
  have h4 := dataField_toNat v
  have h5 := restField_toNat v
  have h6 := aboveDataField_toNat v
  unfold decode
  simp only [BitVec.toNat_eq, ne_eq]
  generalize opField v = op at *
  generalize rsvField v = rsv at *
  generalize hws : wselField v = ws at *
  generalize hda : dataField v = da at *
  generalize restField v = re at *
  generalize aboveDataField v = ab at *
  cases i with
  | start wsel =>
    have := wsel.isLt
    split_ifs <;> simp only [CommandClass.legal.injEq, Instr.start.injEq, reduceCtorEq, false_iff, BitVec.toNat_eq] <;>
      simp at * <;> omega
  | push data =>
    have := data.isLt
    split_ifs <;> simp only [CommandClass.legal.injEq, Instr.push.injEq, reduceCtorEq, false_iff, BitVec.toNat_eq] <;>
      simp at * <;> omega
  | nop => split_ifs <;> simp at * <;> omega
  | final => split_ifs <;> simp at * <;> omega
  | clear => split_ifs <;> simp at * <;> omega

/-- The word of an instruction as a number (30_encoding.md R81, R82). -/
theorem encode_toNat (i : Instr) :
    (encode i).toNat =
      match i with
      | .nop => 0
      | .start wsel => 2 ^ 28 + wsel.toNat * 2 ^ 8
      | .push data => 2 * 2 ^ 28 + data.toNat
      | .final => 3 * 2 ^ 28
      | .clear => 4 * 2 ^ 28 := by
  cases i <;> simp [encode, formatC_toNat, Instr.op]

end Sys2Proof
end

