-- ==== Sys2Proof/Laws/Window.lean ====
section
/-! SUPPORT. The offset table of 20_memory.md R55, read both ways. -/

namespace Sys2Proof.Machine

/-- A register is found at its offset. -/
@[simp] theorem RegName.ofOffset_offset (n : RegName) : RegName.ofOffset n.offset = some n := by
  cases n <;> rfl

/-- CMD is at the offset 0, in the spelling `simp` gives it. -/
@[simp] theorem RegName.ofOffset_zero : RegName.ofOffset 0#8 = some .cmd := rfl

/-- A register is found at its offset alone. -/
theorem RegName.ofOffset_eq_some (addr : BitVec 8) (n : RegName) (h : RegName.ofOffset addr = some n) :
    addr = n.offset := by
  unfold RegName.ofOffset at h
  split_ifs at h <;> simp only [Option.some.injEq] at h <;> subst h <;> assumption

/-- An offset names no register exactly when it is misaligned or unmapped (20_memory.md R54, R55). -/
theorem RegName.ofOffset_eq_none (addr : BitVec 8) :
    RegName.ofOffset addr = none ↔ addr.toNat % 4 ≠ 0 ∨ 0x1C ≤ addr.toNat := by
  revert addr; decide

@[simp] theorem Regs.read_cmd (r : Regs) : r.read .cmd = none := rfl
@[simp] theorem Regs.read_status (r : Regs) : r.read .status = some r.status := rfl
@[simp] theorem Regs.read_result (r : Regs) : r.read .result = some r.result := rfl
@[simp] theorem Regs.read_count (r : Regs) : r.read .count = some r.count := rfl
@[simp] theorem Regs.read_acc (r : Regs) : r.read .acc = some r.acc := rfl
@[simp] theorem Regs.read_wbuf (r : Regs) : r.read .wbuf = some r.wbuf := rfl
@[simp] theorem Regs.read_maxlen (r : Regs) : r.read .maxlen = some r.maxlen := rfl

end Sys2Proof.Machine
end

