-- ==== Sys2Proof/Laws/Port.lean ====
section
/-! SUPPORT. Every command, request and clock edge as what it can do, said once: later proofs cite these and do not unfold the
machine again. -/

namespace Sys2Proof.Machine

/-! ### Commands -/

/-- The registers after a legal command (41_commands.md R140); `exec` is this on the registers and nothing else. -/
def Regs.afterInstr (i : Instr) (r : Regs) : Regs :=
  match i with
  | .nop => r
  | .start wsel =>
    match Width.ofWsel wsel with
    | some w => r.init w
    | none => r.raiseError .illegalWidth
  | .push b =>
    if r.state = .active then
      if r.maxlen.toNat ≤ r.count.toNat then r.raiseError .lengthOverflow else r.assemble b
    else r.raiseError .sequence
  | .final => if r.state = .active then r.pad.latchResult else r.raiseError .sequence
  | .clear => Regs.reset r.maxlen

/-- The registers after any command word (41_commands.md R140). -/
def Regs.afterWord (v : Word) (r : Regs) : Regs :=
  match decode v with
  | .legal i => r.afterInstr i
  | .illegalOpcode => r.raiseError .illegalOpcode
  | .illegalWidth => r.raiseError .illegalWidth

/-- Every command completes, and acts on the registers alone. -/
theorem exec_eq (i : Instr) (s : State) : exec i s = .next (s.mapRegs (Regs.afterInstr i)) := by
  have hid : ∀ c, s.regs.state = .error → s.mapRegs (Regs.raiseError c) = s := fun c h => by
    simp [State.mapRegs, Regs.raiseError_of_error c s.regs h]
  cases i with
  | nop => rfl
  | start wsel =>
    simp only [exec, execStart, State.mapRegs, State.raiseError, Regs.afterInstr]
    cases Width.ofWsel wsel <;> rfl
  | push b =>
    simp only [exec, execPush]
    cases hs : s.regs.state <;> simp [State.mapRegs, State.raiseError, Regs.afterInstr, hs]
    · split <;> rfl
    · rw [Regs.raiseError_of_error _ _ hs]
  | final =>
    simp only [exec, execFinal]
    cases hs : s.regs.state <;> simp [State.mapRegs, State.raiseError, Regs.afterInstr, hs]
    rw [Regs.raiseError_of_error _ _ hs]
  | clear => rfl

/-- Every command word completes, and acts on the registers alone. -/
theorem execWord_eq (v : Word) (s : State) : execWord v s = .next (s.mapRegs (Regs.afterWord v)) := by
  simp only [execWord, State.mapRegs, Regs.afterWord]
  cases decode v with
  | legal i => simpa only [State.mapRegs] using exec_eq i s
  | illegalOpcode => rfl
  | illegalWidth => rfl

@[simp] theorem Regs.afterInstr_maxlen (i : Instr) (r : Regs) : (r.afterInstr i).maxlen = r.maxlen := by
  cases i <;> simp only [Regs.afterInstr] <;> (try split) <;> (try split) <;> simp

@[simp] theorem Regs.afterWord_maxlen (v : Word) (r : Regs) : (r.afterWord v).maxlen = r.maxlen := by
  unfold Regs.afterWord; split <;> simp

/-! ### Requests -/

/-- What a request can be: a write of CMD, which runs its word and is acknowledged; a read of a readable register; or a bus
error (20_memory.md R56, R57, R58). -/
theorem perform_cases (req : Request) (s : State) :
    (req.write = true ∧ req.addr = RegName.cmd.offset ∧
      perform req s = .next (s.mapRegs (Regs.afterWord req.wdata), Response.ack)) ∨
    (∃ n v, req.write = false ∧ req.addr = n.offset ∧ s.regs.read n = some v ∧
      perform req s = .next (s, ⟨false, v⟩)) ∨
    perform req s = .next (s, Response.busError) := by
  unfold perform
  cases hn : RegName.ofOffset req.addr with
  | none => exact .inr (.inr rfl)
  | some n =>
    have ha := RegName.ofOffset_eq_some _ _ hn
    cases hw : req.write with
    | true =>
      cases n with
      | cmd => left; exact ⟨rfl, ha, by simp [execWord_eq]⟩
      | _ => exact .inr (.inr (by simp))
    | false =>
      cases hr : s.regs.read n with
      | none => exact .inr (.inr (by simp [hr]))
      | some v => exact .inr (.inl ⟨n, v, rfl, ha, hr, by simp [hr]⟩)

/-- Every request gets a response, and touches nothing but the registers (20_memory.md R53). -/
theorem perform_total (req : Request) (s : State) :
    ∃ r resp, perform req s = .next ({ s with regs := r }, resp) ∧ (r = s.regs ∨ r = s.regs.afterWord req.wdata) := by
  rcases perform_cases req s with ⟨-, -, h⟩ | ⟨_, v, -, -, -, h⟩ | h
  · exact ⟨_, _, h, .inr rfl⟩
  · exact ⟨s.regs, _, h, .inl rfl⟩
  · exact ⟨s.regs, _, h, .inl rfl⟩

/-- A write of CMD runs its word and is acknowledged (20_memory.md R58). -/
theorem perform_command (v : Word) (s : State) :
    perform (Request.command v) s = .next (s.mapRegs (Regs.afterWord v), Response.ack) := by
  simp [perform, Request.command, execWord_eq]

/-! ### Sequences -/

@[simp] theorem execWords_nil (s : State) : execWords [] s = .next s := rfl

theorem execWords_cons (v : Word) (vs : List Word) (s : State) :
    execWords (v :: vs) s = execWords vs (s.mapRegs (Regs.afterWord v)) := by
  rw [execWords, execWord_eq]

/-- A sequence of words completes, and acts on the registers alone. -/
theorem execWords_eq (vs : List Word) (s : State) :
    execWords vs s = .next (s.mapRegs fun r => vs.foldl (fun x v => x.afterWord v) r) := by
  induction vs generalizing s with
  | nil => rfl
  | cons v vs ih => rw [execWords_cons, ih]; rfl

theorem execWords_append (vs us : List Word) (s t : State) (h : execWords vs s = .next t) :
    execWords (vs ++ us) s = execWords us t := by
  rw [execWords_eq] at h ⊢
  rw [execWords_eq]
  simp only [Host.Outcome.next.injEq] at h
  subst h
  simp [State.mapRegs, List.foldl_append]

@[simp] theorem performAll_nil (s : State) : performAll [] s = .next (s, []) := rfl

theorem performAll_cons_next (req : Request) (reqs : List Request) (s t u : State) (resp : Response)
    (resps : List Response) (h : perform req s = .next (t, resp)) (hs : performAll reqs t = .next (u, resps)) :
    performAll (req :: reqs) s = .next (u, resp :: resps) := by
  rw [performAll, h]; simp only [hs]

theorem performAll_append_next (reqs qs : List Request) (s t u : State) (rs ps : List Response)
    (h : performAll reqs s = .next (t, rs)) (hq : performAll qs t = .next (u, ps)) :
    performAll (reqs ++ qs) s = .next (u, rs ++ ps) := by
  induction reqs generalizing s rs with
  | nil =>
    simp only [performAll_nil, Host.Outcome.next.injEq, Prod.mk.injEq] at h
    obtain ⟨rfl, rfl⟩ := h
    simpa using hq
  | cons req reqs ih =>
    obtain ⟨r, resp, hp, -⟩ := perform_total req s
    rw [performAll, hp] at h
    simp only at h
    cases hr : performAll reqs { s with regs := r } with
    | next x =>
      obtain ⟨t', rs'⟩ := x
      rw [hr] at h
      simp only [Host.Outcome.next.injEq, Prod.mk.injEq] at h
      obtain ⟨rfl, rfl⟩ := h
      exact performAll_cons_next _ _ _ _ _ _ _ hp (ih _ _ hr)
    | fault f => rw [hr] at h; simp at h
    | refused q => rw [hr] at h; simp at h

/-! ### Clock edges -/

/-- A transfer performs the request and leaves its response owed (20_memory.md R52, R53). -/
theorem transfer_eq (req : Request) (s t : State) (resp : Response) (h : perform req s = .next (t, resp)) :
    transfer req s = .next (t.withPort (.busy (req.latency t.regs.padcnt - 1) resp)) := by
  simp [transfer, h]

theorem clockEdge_reset (p : Pins) (s : State) (h : p.rstN = false) : clockEdge p s = .next s.resetEdge := by
  simp [clockEdge, h]

theorem clockEdge_inReset (p : Pins) (s : State) (h : p.rstN = true) (hp : s.port = .inReset) :
    clockEdge p s = .next (s.withPort .ready) := by
  simp [clockEdge, h, hp]

theorem clockEdge_wait (p : Pins) (s : State) (h : p.rstN = true) (hp : s.port = .ready) (hv : p.reqValid = false) :
    clockEdge p s = .next s := by
  simp [clockEdge, h, hp, hv]

theorem clockEdge_transfer (p : Pins) (s : State) (h : p.rstN = true) (hp : s.port = .ready) (hv : p.reqValid = true) :
    clockEdge p s = transfer p.request s := by
  simp [clockEdge, h, hp, hv]

theorem clockEdge_respond (p : Pins) (s : State) (resp : Response) (h : p.rstN = true) (hp : s.port = .busy 0 resp) :
    clockEdge p s = .next (s.withPort (.responding resp)) := by
  simp [clockEdge, h, hp]

theorem clockEdge_count (p : Pins) (s : State) (n : Nat) (resp : Response) (h : p.rstN = true)
    (hp : s.port = .busy (n + 1) resp) : clockEdge p s = .next (s.withPort (.busy n resp)) := by
  simp [clockEdge, h, hp]

theorem clockEdge_answered (p : Pins) (s : State) (resp : Response) (h : p.rstN = true)
    (hp : s.port = .responding resp) : clockEdge p s = .next (s.withPort .ready) := by
  simp [clockEdge, h, hp]

/-- A ready port takes the request that the next pins present (20_memory.md R52). -/
theorem step_present (s t : State) (req : Request) (rest : List Pins) (resp : Response) (hp : s.port = .ready)
    (h : s.pins = Pins.present req :: rest) (hq : perform req s.sampled = .next (t, resp)) :
    step s = .next (t.withPort (.busy (req.latency t.regs.padcnt - 1) resp)) := by
  rw [step, s.nextPins_cons _ _ h, clockEdge_transfer _ s.sampled rfl hp rfl, Pins.request_present]
  exact transfer_eq _ _ _ _ hq

/-- Everything one step can do, if it answers a next state: a reset edge; a transfer; or an edge that moves the port alone. -/
theorem step_cases {s t : State} (h : step s = .next t) :
    (s.nextPins.rstN = false ∧ t = s.sampled.resetEdge) ∨
    (s.nextPins.rstN = true ∧ s.port = .ready ∧ s.nextPins.reqValid = true ∧
      ∃ u resp, perform s.nextPins.request s.sampled = .next (u, resp) ∧
        t = u.withPort (.busy (s.nextPins.request.latency u.regs.padcnt - 1) resp)) ∨
    (s.nextPins.rstN = true ∧ ∃ p, t = s.sampled.withPort p ∧
      ((s.port = .inReset ∧ p = .ready) ∨
       (s.port = .ready ∧ s.nextPins.reqValid = false ∧ p = .ready) ∨
       (∃ resp, s.port = .busy 0 resp ∧ p = .responding resp) ∨
       (∃ n resp, s.port = .busy (n + 1) resp ∧ p = .busy n resp) ∨
       (∃ resp, s.port = .responding resp ∧ p = .ready))) := by
  unfold step at h
  cases hr : s.nextPins.rstN with
  | false =>
    rw [clockEdge_reset _ _ hr] at h
    exact .inl ⟨rfl, by simpa using h.symm⟩
  | true =>
    right
    cases hp : s.port with
    | unreset => simp [clockEdge, hr, hp] at h
    | inReset =>
      rw [clockEdge_inReset _ _ hr (by simpa using hp)] at h
      exact .inr ⟨rfl, .ready, by simpa using h.symm, by simp⟩
    | ready =>
      cases hv : s.nextPins.reqValid with
      | true =>
        rw [clockEdge_transfer _ _ hr (by simpa using hp) hv] at h
        obtain ⟨r, resp, hq, -⟩ := perform_total s.nextPins.request s.sampled
        rw [transfer_eq _ _ _ _ hq] at h
        exact .inl ⟨rfl, rfl, rfl, _, resp, hq, by simpa using h.symm⟩
      | false =>
        rw [clockEdge_wait _ _ hr (by simpa using hp) hv] at h
        refine .inr ⟨rfl, .ready, ?_, by simp⟩
        have := h; simp at this; subst this; simp [State.withPort, State.sampled, hp]
    | busy n resp =>
      cases n with
      | zero =>
        rw [clockEdge_respond _ _ resp hr (by simpa using hp)] at h
        exact .inr ⟨rfl, .responding resp, by simpa using h.symm, by simp⟩
      | succ n =>
        rw [clockEdge_count _ _ n resp hr (by simpa using hp)] at h
        exact .inr ⟨rfl, .busy n resp, by simpa using h.symm, by simp⟩
    | responding resp =>
      rw [clockEdge_answered _ _ resp hr (by simpa using hp)] at h
      exact .inr ⟨rfl, .ready, by simpa using h.symm, by simp⟩

/-- The registers after a step: reset, a command word's effect, or as before. -/
theorem step_regs {s t : State} (h : step s = .next t) :
    (s.nextPins.rstN = false ∧ t.regs = Regs.reset s.regs.maxlen) ∨
    (s.nextPins.rstN = true ∧ s.port = .ready ∧ s.nextPins.reqValid = true ∧ s.nextPins.reqWrite = true ∧
      s.nextPins.reqAddr = RegName.cmd.offset ∧ t.regs = s.regs.afterWord s.nextPins.reqWdata) ∨
    t.regs = s.regs := by
  rcases step_cases h with ⟨hr, rfl⟩ | ⟨hr, hp, hv, u, resp, hq, rfl⟩ | ⟨-, p, rfl, -⟩
  · exact .inl ⟨hr, rfl⟩
  · rcases perform_cases s.nextPins.request s.sampled with ⟨hw, ha, hx⟩ | ⟨_, v, -, -, -, hx⟩ | hx
    · rw [hq] at hx
      simp only [Host.Outcome.next.injEq, Prod.mk.injEq] at hx
      obtain ⟨rfl, rfl⟩ := hx
      exact .inr (.inl ⟨hr, hp, hv, hw, ha, rfl⟩)
    all_goals
      rw [hq] at hx
      simp only [Host.Outcome.next.injEq, Prod.mk.injEq] at hx
      obtain ⟨rfl, rfl⟩ := hx
      exact .inr (.inr rfl)
  · exact .inr (.inr rfl)

end Sys2Proof.Machine
end

