-- ==== Sys2Proof/Laws/Invariant.lean ====
section
/-! SUPPORT. Each shared operation on the registers keeps the invariant of 10_state.md R34. -/

namespace Sys2Proof.Machine

/-- An error leaves every other register as it was (60_exceptions.md R180). -/
theorem Regs.Inv.raiseError {r : Regs} (h : r.Inv) (c : ErrorCode) (hc : c ≠ .noError) : (r.raiseError c).Inv := by
  by_cases he : r.state = .error
  · rwa [Regs.raiseError_of_error _ _ he]
  · rw [Regs.raiseError_of_ne _ _ he]
    exact {
      maxlen_ge := h.maxlen_ge, maxlen_le := h.maxlen_le, lane_lt := h.lane_lt, padcnt_lt := h.padcnt_lt
      result_lt := h.result_lt, count_le := h.count_le, wbuf_low := h.wbuf_low, wbuf_high := h.wbuf_high
      ecode_iff := by simp [hc]
      idle_reset := by simp, active_lane := by simp, active_padcnt := by simp, active_count := by simp
      active_result := by simp, done_lane := by simp, done_wbuf := by simp, done_count := by simp, done_result := by simp }

/-- The reset values meet the invariant for every legal MAX_LEN (10_state.md R38). -/
theorem Regs.inv_reset (m : Word) (hge : 1023 ≤ m.toNat) (hle : m.toNat ≤ 2 ^ 32 - 4) : (Regs.reset m).Inv := by
  constructor <;> simp_all [Width.lanes]

/-- START meets the invariant for every legal MAX_LEN (41_commands.md R143). -/
theorem Regs.inv_init (r : Regs) (w : Width) (hge : 1023 ≤ r.maxlen.toNat) (hle : r.maxlen.toNat ≤ 2 ^ 32 - 4) :
    (r.init w).Inv := by
  have := w.lanes_pos
  constructor <;> simp_all

/-- What the assembler keeps: LANE = COUNT mod L, and WBUF fills the top LANE places of its L places (10_state.md R30, R34). -/
structure Regs.Assembling (r : Regs) : Prop where
  lane_lt : r.lane.toNat < r.width.lanes
  lane_eq : r.lane.toNat = r.count.toNat % r.width.lanes
  wbuf_low : r.wbuf.toNat % 2 ^ (8 * (r.width.lanes - r.lane.toNat)) = 0
  wbuf_high : r.wbuf.toNat < 2 ^ (8 * r.width.lanes)

theorem Regs.Inv.assembling {r : Regs} (h : r.Inv) (ha : r.state = .active) : r.Assembling :=
  ⟨h.lane_lt, h.active_lane ha, h.wbuf_low, h.wbuf_high⟩

/-- COUNT + 1 does not wrap below 2^32 − 1. -/
theorem count_succ_toNat (c : Word) (h : c.toNat < 2 ^ 32 - 1) : (c + 1).toNat = c.toNat + 1 := by
  simp; omega

theorem Regs.Assembling.assemble {r : Regs} (h : r.Assembling) (b : Byte) (hc : r.count.toNat < 2 ^ 32 - 1) :
    (r.assemble b).Assembling := by
  obtain ⟨hlt, heq, hlow, hhigh⟩ := h
  have hl := Regs.assemble_lane b r hlt
  refine ⟨by simpa using Regs.assemble_lane_lt b r hlt, ?_, ?_, ?_⟩
  · rw [hl, heq]
    simp only [Regs.assemble_width, Regs.assemble_count, count_succ_toNat _ hc, Nat.mod_add_mod]
  all_goals
    by_cases hlast : r.lane.toNat = r.width.lanes - 1
    · rw [Regs.assemble_of_last _ _ hlast]; simp
    rw [Regs.assemble_of_not_last _ _ hlast] at hl ⊢
    simp only at hl ⊢
    rw [Nat.mod_eq_of_lt (by omega)] at hl
    rw [Regs.wordWith_toNat, Regs.shift]
  · rw [hl, show r.width.lanes - (r.lane.toNat + 1) = r.width.lanes - 1 - r.lane.toNat by omega, Nat.or_mod_two_pow,
      Nat.shiftLeft_eq, Nat.mul_mod_left, Nat.or_zero]
    exact Nat.mod_eq_zero_of_dvd (Dvd.dvd.trans (Nat.pow_dvd_pow 2 (by omega)) (Nat.dvd_of_mod_eq_zero hlow))
  · apply Nat.or_lt_two_pow hhigh
    rw [Nat.shiftLeft_eq,
      show 8 * r.width.lanes = 8 + 8 * (r.width.lanes - 1 - r.lane.toNat) + 8 * r.lane.toNat by omega, Nat.pow_add,
      Nat.pow_add]
    exact lt_of_lt_of_le (Nat.mul_lt_mul_of_pos_right b.isLt (Nat.two_pow_pos _))
      (Nat.le_mul_of_pos_right _ (Nat.two_pow_pos _))

/-- So many padding bytes keep it too, and COUNT gains their number. -/
theorem Regs.Assembling.assembleMany {r : Regs} (h : r.Assembling) (n : Nat) (hc : r.count.toNat + n ≤ 2 ^ 32 - 1) :
    (r.assembleMany n).Assembling ∧ (r.assembleMany n).count.toNat = r.count.toNat + n ∧
      (r.assembleMany n).width = r.width := by
  induction n generalizing r with
  | zero => exact ⟨h, rfl, rfl⟩
  | succ n ih =>
    have hcnt : (r.assemble Config.padByte).count.toNat = r.count.toNat + 1 := by
      rw [Regs.assemble_count]; exact count_succ_toNat _ (by omega)
    obtain ⟨h1, h2, h3⟩ := ih (h.assemble Config.padByte (by omega)) (by omega)
    rw [Regs.assembleMany_succ]
    exact ⟨h1, by omega, by simpa using h3⟩

/-- In ACTIVE there is no error code (10_state.md R31). -/
theorem Regs.Inv.ecode_of_active {r : Regs} (h : r.Inv) (ha : r.state = .active) : r.ecode = .noError := by
  by_contra hne
  have := h.ecode_iff.1 hne
  simp [ha] at this

/-- PUSH below the length bound keeps the invariant (41_commands.md R144, R145). -/
theorem Regs.Inv.assemble {r : Regs} (h : r.Inv) (b : Byte) (ha : r.state = .active)
    (hl : r.count.toNat < r.maxlen.toNat) : (r.assemble b).Inv := by
  have hm := h.maxlen_le
  have hc := (h.assembling ha).assemble b (by omega)
  have hcnt : (r.assemble b).count.toNat = r.count.toNat + 1 := by
    rw [Regs.assemble_count]; exact count_succ_toNat _ (by omega)
  exact {
    maxlen_ge := by simpa using h.maxlen_ge, maxlen_le := by simpa using h.maxlen_le
    lane_lt := hc.lane_lt, padcnt_lt := by simpa using h.padcnt_lt, result_lt := by simpa using h.result_lt
    count_le := by rw [hcnt, Regs.assemble_maxlen]; omega
    wbuf_low := hc.wbuf_low, wbuf_high := hc.wbuf_high
    ecode_iff := by simp [ha, h.ecode_of_active ha]
    idle_reset := by simp [ha]
    active_lane := fun _ => hc.lane_eq, active_padcnt := fun _ => by simpa using h.active_padcnt ha
    active_count := fun _ => by rw [hcnt, Regs.assemble_maxlen]; omega
    active_result := fun _ => by simpa using h.active_result ha
    done_lane := by simp [ha], done_wbuf := by simp [ha], done_count := by simp [ha], done_result := by simp [ha] }

/-- What the padding of FINAL leaves in ACTIVE: an empty lane, and padlen(COUNT, W) more bytes (40_datapath.md R117). -/
theorem Regs.Inv.pad {r : Regs} (h : r.Inv) (ha : r.state = .active) :
    r.pad.lane = 0 ∧ r.pad.wbuf = 0 ∧ r.pad.count.toNat % r.width.lanes = 0 ∧
      r.pad.count.toNat = r.count.toNat + padLen r.width r.count.toNat ∧
      r.pad.padcnt.toNat = padLen r.width r.count.toNat := by
  have hm := h.maxlen_le
  have hc := h.active_count ha
  have h4 := r.width.lanes_le_four
  have hpl := padLen_lt r.width r.count.toNat
  rw [Regs.pad_eq_assembleMany _ h.lane_lt,
    show (r.width.lanes - r.lane.toNat) % r.width.lanes = padLen r.width r.count.toNat by rw [h.active_lane ha]; rfl]
  obtain ⟨⟨-, hlane, hlow, hhigh⟩, hcnt, hw⟩ :=
    (h.assembling ha).assembleMany (padLen r.width r.count.toNat) (by omega)
  have hz := add_padLen_mod r.width r.count.toNat
  rw [hcnt, hw, hz] at hlane
  rw [hlane, hw, Nat.sub_zero] at hlow
  rw [hw] at hhigh
  refine ⟨BitVec.eq_of_toNat_eq (by simpa using hlane),
    BitVec.eq_of_toNat_eq (by simpa using Nat.eq_zero_of_dvd_of_lt (Nat.dvd_of_mod_eq_zero hlow) hhigh), ?_, hcnt, ?_⟩
  · simp only [hcnt, hz]
  · simp; omega

/-- FINAL keeps the invariant (41_commands.md R146). -/
theorem Regs.Inv.final {r : Regs} (h : r.Inv) (ha : r.state = .active) : r.pad.latchResult.Inv := by
  obtain ⟨hlane, hwbuf, hmod, hcnt, hpad⟩ := h.pad ha
  have hc := h.active_count ha
  have h4 := r.width.lanes_le_four
  have hpl := padLen_lt r.width r.count.toNat
  exact {
    maxlen_ge := by simpa using h.maxlen_ge, maxlen_le := by simpa using h.maxlen_le
    lane_lt := by simpa [hlane] using r.width.lanes_pos
    padcnt_lt := by rw [Regs.latchResult_padcnt, hpad]; simpa using hpl
    result_lt := by
      rw [Regs.latchResult_result, Width.and_mask_toNat]; simpa using Nat.mod_lt _ (Nat.two_pow_pos _)
    count_le := by rw [Regs.latchResult_count, hcnt, Regs.latchResult_maxlen, Regs.pad_maxlen]; omega
    wbuf_low := by simp [hwbuf], wbuf_high := by simp [hwbuf]
    ecode_iff := by simp [h.ecode_of_active ha]
    idle_reset := by simp, active_lane := by simp, active_padcnt := by simp, active_count := by simp
    active_result := by simp
    done_lane := fun _ => hlane, done_wbuf := fun _ => hwbuf
    done_count := fun _ => by simpa using hmod
    done_result := fun _ => by simp }

end Sys2Proof.Machine
end

