-- ==== Sys2Proof/Laws/PerInstr.lean ====
section
/-! SUPPORT. Facts about every instruction as syntax, one lemma per constructor. -/

namespace Sys2Proof.Laws.FieldsOfWord

/-- The word of the instruction holds its OP at bits [31:28] and 0 in RSV (30_encoding.md R81, R82, R85). -/
def Statement (i : Instr) : Prop := opField (encode i) = i.op ∧ rsvField (encode i) = 0

theorem nop : Statement .nop := ⟨(fields_formatC _ _ _).1, (fields_formatC _ _ _).2.1⟩

theorem start (wsel : BitVec 2) : Statement (.start wsel) := ⟨(fields_formatC _ _ _).1, (fields_formatC _ _ _).2.1⟩

theorem push (data : Byte) : Statement (.push data) := ⟨(fields_formatC _ _ _).1, (fields_formatC _ _ _).2.1⟩

theorem final : Statement .final := ⟨(fields_formatC _ _ _).1, (fields_formatC _ _ _).2.1⟩

theorem clear : Statement .clear := ⟨(fields_formatC _ _ _).1, (fields_formatC _ _ _).2.1⟩

end Sys2Proof.Laws.FieldsOfWord
end

