-- ==== Sys2Proof/Laws/Run.lean ====
section
/-! SUPPORT. Runs of several edges: how they compose, how a response comes after its latency, and the induction over
reachable states. -/

namespace Sys2Proof.Machine

/-! ### One edge -/

/-- With `rst_n` = 1, an edge at which the write data is no word of START and no word of CLEAR clears nothing. -/
theorem State.not_clears (s : State) (hr : s.nextPins.rstN = true)
    (h1 : ∀ wsel, decode s.nextPins.reqWdata ≠ .legal (.start wsel)) (h2 : decode s.nextPins.reqWdata ≠ .legal .clear) :
    ¬ s.ClearsAtNextEdge := by
  rintro (h | ⟨wsel, h⟩ | h)
  · exact absurd (hr.symm.trans h) (by decide)
  · exact h1 wsel h.2.2.2.2.2
  · exact h2 h.2.2.2.2.2

/-- A decoded START has a width (30_encoding.md R86). -/
theorem width_of_decoded_start (v : Word) (wsel : BitVec 2) (h : decode v = .legal (.start wsel)) :
    ∃ w, Width.ofWsel wsel = some w :=
  Option.ne_none_iff_exists'.1 fun hn =>
    absurd ((decode_legal_iff v _).1 h).1 (by rw [(Width.ofWsel_eq_none wsel).1 hn]; decide)

/-- What an edge that clears the registers leaves: the registers of CLEAR, or of START at some width. -/
theorem step_of_clears {s t : State} (h : step s = .next t) (hc : s.ClearsAtNextEdge) :
    t.regs = Regs.reset s.regs.maxlen ∨
      ∃ w, s.TakesCommand (.start w.wsel) ∧ t.regs = s.regs.init w := by
  have command : ∀ i, s.TakesCommand i → t.regs = s.regs.afterInstr i := by
    rintro i ⟨hr, hp, hv, hw, ha, hd⟩
    have hreq : s.nextPins.request = Request.command s.nextPins.reqWdata := by
      simp [Pins.request, Request.command, hw, ha, RegName.offset]
    rw [step, clockEdge_transfer _ _ hr (by simpa using hp) hv, hreq, transfer_eq _ _ _ _ (perform_command _ _)] at h
    simp only [Host.Outcome.next.injEq] at h
    subst h
    simp [State.withPort, State.mapRegs, State.sampled, Regs.afterWord, hd]
  rcases hc with hr | ⟨wsel, hc⟩ | hc
  · rw [step, clockEdge_reset _ _ hr] at h
    simp only [Host.Outcome.next.injEq] at h
    subst h
    exact .inl rfl
  · obtain ⟨w, hw⟩ := width_of_decoded_start _ _ hc.2.2.2.2.2
    have e := command _ hc
    rw [Regs.afterInstr, hw] at e
    exact .inr ⟨w, Width.wsel_of_ofWsel hw ▸ hc, e⟩
  · exact .inl (command _ hc)

/-- An edge that does not clear the registers leaves them as they are, or runs a word that is no START and no CLEAR. -/
theorem step_of_not_clears {s t : State} (h : step s = .next t) (hc : ¬ s.ClearsAtNextEdge) :
    t.regs = s.regs ∨
      ((∀ wsel, decode s.nextPins.reqWdata ≠ .legal (.start wsel)) ∧ decode s.nextPins.reqWdata ≠ .legal .clear ∧
        t.regs = s.regs.afterWord s.nextPins.reqWdata) := by
  rcases step_regs h with ⟨hr, -⟩ | ⟨hr, hp, hv, hw, ha, e⟩ | e
  · exact absurd (.inl hr) hc
  · exact .inr ⟨fun wsel hd => hc (.inr (.inl ⟨wsel, hr, hp, hv, hw, ha, hd⟩)),
      fun hd => hc (.inr (.inr ⟨hr, hp, hv, hw, ha, hd⟩)), e⟩
  · exact .inl e

/-! ### Runs of several edges -/

@[simp] theorem runEdges_zero (s : State) : runEdges 0 s = .next s := rfl

theorem runEdges_succ (n : Nat) (s t : State) (h : step s = .next t) : runEdges (n + 1) s = runEdges n t := by
  rw [runEdges, h]

theorem runEdges_add (a b : Nat) (s t : State) (h : runEdges a s = .next t) : runEdges (a + b) s = runEdges b t := by
  induction a generalizing s with
  | zero =>
    simp only [runEdges_zero, Host.Outcome.next.injEq] at h
    subst h; rw [Nat.zero_add]
  | succ a ih =>
    rw [Nat.succ_add, runEdges]
    rw [runEdges] at h
    cases hs : step s with
    | next u => rw [hs] at h; exact ih u h
    | fault f => rw [hs] at h; simp at h
    | refused q => rw [hs] at h; simp at h

/-- A host that never pulls `rst_n` down does not do so at the next edge. -/
theorem State.nextPins_rstN (s : State) (h : ∀ p ∈ s.pins, p.rstN = true) : s.nextPins.rstN = true := by
  unfold State.nextPins
  cases hp : s.pins with
  | nil => rfl
  | cons p rest => exact h p (by simp [hp])

/-- While a response is due and `rst_n` stays 1, each edge takes one cycle off and uses up one sample of the pins; nothing
else changes (20_memory.md R52, R53). -/
theorem runEdges_busy (n j : Nat) (s : State) (resp : Response) (hp : s.port = .busy (n + j) resp)
    (h : ∀ p ∈ s.pins, p.rstN = true) :
    runEdges j s = .next { s with port := .busy n resp, pins := s.pins.drop j, freeIndex := s.freeIndex + j } := by
  induction j generalizing s with
  | zero => rw [Nat.add_zero] at hp; rw [runEdges_zero]; simp [← hp]
  | succ j ih =>
    have hs : step s = .next (s.sampled.withPort (.busy (n + j) resp)) :=
      clockEdge_count s.nextPins s.sampled (n + j) resp (s.nextPins_rstN h) hp
    rw [runEdges_succ _ _ _ hs, ih _ rfl (fun p hm => h p (List.mem_of_mem_tail hm))]
    simp [State.withPort, State.sampled, Nat.add_assoc, Nat.add_comm 1 j]

theorem Request.latency_pos (req : Request) (p : BitVec 2) : 1 ≤ req.latency p := by
  unfold Request.latency commandLatency Config.tCmd Config.tRead Config.tFinal
  split
  · split <;> omega
  · omega

/-- A run of edges from a reachable state stays among the reachable ones. -/
theorem Reachable.runEdges {s t : State} (h : Reachable s) (n : Nat) (hr : runEdges n s = .next t) : Reachable t := by
  induction n generalizing s with
  | zero =>
    simp only [runEdges_zero, Host.Outcome.next.injEq] at hr
    exact hr ▸ h
  | succ n ih =>
    rw [Machine.runEdges] at hr
    cases hs : Machine.step s with
    | next u => rw [hs] at hr; exact ih (h.step hs) hr
    | fault f => rw [hs] at hr; simp at hr
    | refused q => rw [hs] at hr; simp at hr

/-- What holds right after reset under every host, and is kept by every step, holds in every reachable state. -/
theorem Reachable.induct {P : State → Prop} (h0 : ∀ pins, P { State.reset with pins := pins })
    (hstep : ∀ s t, P s → Machine.step s = .next t → P t) {s : State} (h : Reachable s) : P s := by
  induction h with
  | reset pins => exact h0 pins
  | step _ hs ih => exact hstep _ _ ih hs

end Sys2Proof.Machine
end

