-- ==== Sys2Proof/Tests/Slice0.lean ====
section
/-! SUPPORT. The model's own tests. Words are written bit by bit from 30_encoding.md R81, R82, R84 and R87; results come from the
tables of 95_test_vectors.md and the examples of the rules. Then a witness for the hypotheses of each statement. -/

namespace Sys2Proof.Tests

open Sys2Proof Sys2Proof.Machine

/-! ### Well-formedness -/

theorem test_wellFormed_refuses_wsel_three : (Instr.start 3).wellFormed = false := by decide

theorem test_wellFormed_accepts_the_three_widths :
    (Instr.start 0).wellFormed ∧ (Instr.start 1).wellFormed ∧ (Instr.start 2).wellFormed := by decide

/-! ### Decoding: OP RSV WSEL DATA -/

theorem test_decode_nop : decode 0b0000_000000000000000000_00_00000000 = .legal .nop := by decide
theorem test_decode_start8 : decode 0b0001_000000000000000000_00_00000000 = .legal (.start 0) := by decide
theorem test_decode_start16 : decode 0b0001_000000000000000000_01_00000000 = .legal (.start 1) := by decide
theorem test_decode_start32 : decode 0b0001_000000000000000000_10_00000000 = .legal (.start 2) := by decide
theorem test_decode_push : decode 0b0010_000000000000000000_00_01000001 = .legal (.push 0x41) := by decide
theorem test_decode_final : decode 0b0011_000000000000000000_00_00000000 = .legal .final := by decide
theorem test_decode_clear : decode 0b0100_000000000000000000_00_00000000 = .legal .clear := by decide
theorem test_decode_illegal_width : decode 0b0001_000000000000000000_11_00000000 = .illegalWidth := by decide

/-- R186: reserved bits are checked before the width. -/
theorem test_decode_reserved_before_width : decode 0b0001_000000000000000001_11_00000000 = .illegalOpcode := by decide

/-- 95_test_vectors.md 2.4: a field that a command does not have must be 0, and the OPs 5 and 15 are reserved. -/
theorem test_decode_illegal_opcodes :
    decode 0x00000001 = .illegalOpcode ∧ decode 0x10000001 = .illegalOpcode ∧ decode 0x20000100 = .illegalOpcode ∧
    decode 0x30000001 = .illegalOpcode ∧ decode 0x40000100 = .illegalOpcode ∧ decode 0x50000000 = .illegalOpcode ∧
    decode 0xF0000000 = .illegalOpcode := by decide

theorem test_decodeTableWord :
    decodeTableWord 32 0x20000058 = some (.push 0x58) ∧ decodeTableWord 32 0x10000300 = none ∧
    decodeTableWord 8 0x00 = some .nop := by decide

/-! ### Commands, one word at a time -/

/-- What the tables of 95_test_vectors.md show of the registers: STATUS, RESULT, COUNT, ACC, WBUF. -/
def shown : Host.Outcome State Fault Refusal → Option (Word × Word × Word × Word × Word)
  | .next s => some (s.regs.status, s.regs.result, s.regs.count, s.regs.acc, s.regs.wbuf)
  | .fault _ => none
  | .refused _ => none

/-- A ready block with MAX_LEN = 1023, as 95_test_vectors.md has it, whose registers are `r`. -/
def block (r : Regs) : State := ⟨{ r with maxlen := 1023 }, .ready, [], 0⟩

/-- The state "reset" of 95_test_vectors.md 2.4. -/
def fresh : State := block (Regs.reset 1023)

/-- The state A16 of 95_test_vectors.md 2.4: ACTIVE at width 16 after PUSH 0x41. -/
def a16 : State := block ⟨.active, .w16, 1, 0, .noError, 0, 1, 0, 0x4100, 1023⟩

/-- The state D16 of 95_test_vectors.md 2.4: DONE at width 16 with "A". -/
def d16 : State := block ⟨.done, .w16, 0, 1, .noError, 0x4158, 2, 0x4158, 0, 1023⟩

/-- The state E3 of 95_test_vectors.md 2.4: ERROR with the code 3, after a PUSH in IDLE. -/
def e3 : State := block ⟨.error, .w8, 0, 0, .sequence, 0, 0, 0, 0, 1023⟩

/-- ACTIVE at width 8 with MAX_LEN bytes 0x01 pushed (95_test_vectors.md, length bound). -/
def full : State := block ⟨.active, .w8, 0, 0, .noError, 0, 1023, 0x3FF, 0, 1023⟩

/-- ACTIVE at width 32 after the bytes 0x41 0x42 (95_test_vectors.md 2.2). -/
def ab32 : State := block ⟨.active, .w32, 2, 0, .noError, 0, 2, 0, 0x41420000, 1023⟩

/-- ACTIVE at width 32 after seven bytes 0xFF (95_test_vectors.md 2.3). -/
def ones32 : State := block ⟨.active, .w32, 3, 0, .noError, 0, 7, 0xFFFFFFFF, 0xFFFFFF00, 1023⟩

theorem test_nop_in_active : shown (execWord 0x00000000 a16) = some (0x15, 0, 1, 0, 0x4100) := by decide
theorem test_nop_in_error : shown (execWord 0x00000000 e3) = some (0x303, 0, 0, 0, 0) := by decide
theorem test_start16_from_reset : shown (execWord 0x10000100 fresh) = some (0x05, 0, 0, 0, 0) := by decide
theorem test_start32_restarts : shown (execWord 0x10000200 a16) = some (0x09, 0, 0, 0, 0) := by decide
theorem test_push_completes_word : shown (execWord 0x20000042 a16) = some (0x05, 0, 2, 0x4142, 0) := by decide

/-- The carry out of bit 31 is dropped: 0xFFFF_FFFF + 0xFFFF_FFFF. -/
theorem test_push_drops_carry : shown (execWord 0x200000FF ones32) = some (0x09, 0, 8, 0xFFFFFFFE, 0) := by decide

theorem test_final_pads_one : shown (execWord 0x30000000 a16) = some (0x46, 0x4158, 2, 0x4158, 0) := by decide
theorem test_final_pads_two : shown (execWord 0x30000000 ab32) = some (0x8A, 0x41425858, 4, 0x41425858, 0) := by decide
theorem test_clear_in_active : shown (execWord 0x40000000 a16) = some (0, 0, 0, 0, 0) := by decide
theorem test_clear_in_error : shown (execWord 0x40000000 e3) = some (0, 0, 0, 0, 0) := by decide

theorem test_illegal_width_keeps_lane : shown (execWord 0x10000300 a16) = some (0x217, 0, 1, 0, 0x4100) := by decide
theorem test_illegal_opcode : shown (execWord 0x50000000 a16) = some (0x117, 0, 1, 0, 0x4100) := by decide
theorem test_second_final : shown (execWord 0x30000000 d16) = some (0x347, 0x4158, 2, 0x4158, 0) := by decide
theorem test_length_overflow : shown (execWord 0x20000001 full) = some (0x403, 0, 1023, 0x3FF, 0) := by decide

/-! ### The port -/

/-- The response of a request, and STATUS after it (95_test_vectors.md 2.5). -/
def answered : Host.Outcome (State × Response) Fault Refusal → Option (Bool × Word × Word)
  | .next (s, resp) => some (resp.err, resp.rdata, s.regs.status)
  | .fault _ => none
  | .refused _ => none

theorem test_read_status : answered (perform ⟨false, 0x04, 0⟩ a16) = some (false, 0x15, 0x15) := by decide
theorem test_read_maxlen : answered (perform ⟨false, 0x18, 0⟩ fresh) = some (false, 0x3FF, 0) := by decide
theorem test_write_status : answered (perform ⟨true, 0x04, 0⟩ a16) = some (true, 0, 0x15) := by decide
theorem test_write_misaligned_cmd : answered (perform ⟨true, 0x02, 0x40000000⟩ a16) = some (true, 0, 0x15) := by decide
theorem test_read_cmd : answered (perform ⟨false, 0x00, 0⟩ a16) = some (true, 0, 0x15) := by decide
theorem test_read_unmapped : answered (perform ⟨false, 0xFC, 0⟩ a16) = some (true, 0, 0x15) := by decide

/-- The placed word is the first command after reset. -/
theorem test_step_runs_placed_word :
    shown (step (State.reset.withFetchWord 32 0x10000200)) = some (0x09, 0, 0, 0, 0) := by decide

/-- A reset edge drops a response that is due (R211). -/
theorem test_reset_drops_request :
    (match step { a16 with port := .busy 3 ⟨false, 0⟩, pins := [⟨false, true, true, 0, 0x20000042⟩] } with
      | .next t => decide (t.regs = Regs.reset 1023 ∧ t.port = .inReset)
      | .fault _ => false
      | .refused _ => false) = true := by decide

/-! ### The reference functions: the source's own examples (95_test_vectors.md S4 to S8) -/

theorem test_checksum8_A : checksum8 [0x41] = 0x41 := by decide
theorem test_checksum16_A : checksum16 [0x41] = 0x4158 := by decide
theorem test_checksum32_AB : checksum32 [0x41, 0x42] = 0x41425858 := by decide
theorem test_checksum_w32_ABCD : checksum .w32 [0x41, 0x42, 0x43, 0x44] = 0x41424344 := by decide

/-! ### The text of host programs (30_encoding.md R90) -/

theorem test_parse_start :
    (Line.parse ['S', 'T', 'A', 'R', 'T', ' ', '1', '6']).map Line.toWord = some 0x10000100 := by decide

theorem test_parse_push_char :
    (Line.parse ['P', 'U', 'S', 'H', ' ', '\'', 'A', '\'']).map Line.toWord = some 0x20000041 := by decide

theorem test_parse_raw_word :
    (HostOp.parse ['W', 'R', ' ', 'C', 'M', 'D', ',', ' ', '.', 'w', 'o', 'r', 'd', ' ', '0', 'x', '1', '0', '0', '0',
      '0', '3', '0', '0']).map HostOp.request = some ⟨true, 0x00, 0x10000300⟩ := by decide

/-- 00_scope.md R7's own example of `_`; and the model's choice (log entry 13) on `_` that does not stand between digits. -/
theorem test_number_underscore :
    number ['0', 'x', '4', '1', '4', '2', '_', '5', '8', '5', '8'] = some 0x41425858 ∧
    number ['_'] = none ∧ number ['0', 'x', '_'] = none ∧ number ['1', '_'] = none ∧ number ['1', '_', '_', '2'] = none := by
  decide

/-- The accesses of 95_test_vectors.md P3 that end in bus errors. -/
theorem test_parse_bus_errors :
    (HostOp.parse "WR STATUS, 0".toList).map HostOp.request = some ⟨true, 0x04, 0⟩ ∧
    (HostOp.parse "RD @0x06".toList).map HostOp.request = some ⟨false, 0x06, 0⟩ ∧
    (HostOp.parse "RD CMD".toList).map HostOp.request = some ⟨false, 0x00, 0⟩ := by decide

/-- The model's choice (log entry 13): a bare number after `WR CMD, ` is the word of `.word`. -/
theorem test_parse_bare_word :
    HostOp.parse "WR CMD, 0x10000300".toList = HostOp.parse "WR CMD, .word 0x10000300".toList ∧
    HostOp.parse "WR CMD, 0x10000300".toList = some (.wr (.word 0x10000300)) := by decide

/-- 30_encoding.md R91. -/
theorem test_parse_pseudo :
    parseProgramLine ("CKSUM 16, \"AB\"").toList =
      some [.wr (.start .w16), .wr (.push 0x41), .wr (.push 0x42), .wr .final, .rd .status, .rd .result, .rd .count] ∧
    parseProgramLine ("PUSHS \"\"").toList = some [] ∧
    parseProgramLine "RESTART 8".toList = some [.wr .clear, .wr (.start .w8)] := by decide

theorem test_parse_read : HostOp.parse ['R', 'D', ' ', 'A', 'C', 'C'] = some (.rd .acc) := by decide

theorem test_cksum_program :
    (cksum .w16 [0x41]).map HostOp.request =
      [⟨true, 0, 0x10000100⟩, ⟨true, 0, 0x20000041⟩, ⟨true, 0, 0x30000000⟩, ⟨false, 4, 0⟩, ⟨false, 8, 0⟩,
       ⟨false, 0xC, 0⟩] := by decide

/-! ### Witnesses: states and operands that meet the hypotheses of each statement -/

/-- The registers of A16 meet the invariant. -/
theorem a16_inv : a16.Inv := by
  refine ⟨?_, rfl⟩
  constructor <;> decide

/-- AssemblerLinesDecodeToTheirInstruction. -/
theorem witness_line : (Line.start .w32).instr = some (.start 2) := by decide

/-- StartWritesEveryRegister and ClearGivesResetValues: the ways out of ERROR. -/
theorem witness_leave_error :
    e3.regs.state = .error ∧
    (∃ t, execWord 0x10000200 e3 = .next t ∧ t.regs.state = .active) ∧
    (∃ t, execWord 0x40000000 e3 = .next t ∧ t.regs.state = .idle) :=
  ⟨rfl, ⟨_, execWord_eq _ _, by decide⟩, ⟨_, execWord_eq _ _, by decide⟩⟩

/-- StartWithReservedCodeRaisesIllegalWidth, RaisingAnErrorWritesStateAndCode and ErrorStateIgnoresRejectedCommands: a state
in ERROR and one that is not. -/
theorem witness_error_and_not : e3.regs.state = .error ∧ a16.regs.state ≠ .error := by decide

/-- AssembleTakesOneByte and PushAssemblesTheByte: the byte that completes a word, and one that does not, at the boundary
lanes 0 and L − 1; PUSH in the four cases of its checks. -/
theorem witness_push :
    (a16.regs.lane.toNat < a16.regs.width.lanes ∧ a16.regs.lane.toNat = a16.regs.width.lanes - 1) ∧
    (ab32.regs.lane.toNat < ab32.regs.width.lanes ∧ ab32.regs.lane.toNat ≠ ab32.regs.width.lanes - 1) ∧
    (full.regs.lane.toNat < full.regs.width.lanes ∧ full.regs.maxlen.toNat ≤ full.regs.count.toNat) ∧
    (e3.regs.lane.toNat < e3.regs.width.lanes ∧ e3.regs.state = .error) ∧
    (d16.regs.lane.toNat < d16.regs.width.lanes ∧ d16.regs.state ≠ .active ∧ d16.regs.state ≠ .error) := by decide

/-- PushAndFinalOutsideComputationRaiseSequence and PushPastMaxLenRaisesLengthOverflow. -/
theorem witness_rejected_push :
    fresh.regs.state = .idle ∧ d16.regs.state = .done ∧
    full.regs.state = .active ∧ full.regs.maxlen.toNat ≤ full.regs.count.toNat := by decide

/-- FinalPadsAndLatches, FinalAppendsPadLenBytes and LatchedValuesStay (its first half). -/
theorem witness_final :
    a16.regs.Inv ∧ a16.regs.state = .active ∧ a16.regs.lane.toNat < a16.regs.width.lanes ∧
    (∃ t, exec .final a16 = .next t) ∧ full.regs.lane = 0 ∧ full.regs.lane.toNat < full.regs.width.lanes :=
  ⟨a16_inv.regs, by decide, by decide, ⟨_, exec_eq _ _⟩, by decide, by decide⟩

/-- IllegalWordRaisesItsError and ErrorStateIgnoresRejectedCommands: a word of each kind. -/
theorem witness_illegal_words : decode 0x50000000 = .illegalOpcode ∧ decode 0x10000300 = .illegalWidth := by decide

/-- ErrorEntryIsPrecise. -/
theorem witness_error_entry :
    ∃ t, execWord 0x5FFFFFFF d16 = .next t ∧ d16.regs.state ≠ .error ∧ t.regs.state = .error :=
  ⟨_, execWord_eq _ _, by decide, by decide⟩

/-- CommandsChangeOnlyTheirRegisters: a command that writes WIDTH, and one that writes RESULT and PADCNT. -/
theorem witness_commands_change :
    (∃ t, exec .clear a16 = .next t ∧ t.regs.width ≠ a16.regs.width) ∧
    (∃ t, exec .final a16 = .next t ∧ t.regs.result ≠ a16.regs.result ∧ t.regs.padcnt ≠ a16.regs.padcnt) :=
  ⟨⟨_, exec_eq _ _, by decide⟩, ⟨_, exec_eq _ _, by decide⟩⟩

/-- D16 with a host that pushes a byte. -/
def d16Push : State := { d16 with pins := [Pins.present (Request.command 0x20000042)] }

/-- A step of `d16Push` transfers the write. -/
theorem d16Push_step : ∃ t, step d16Push = .next t ∧ t.regs ≠ d16Push.regs :=
  ⟨_, step_present d16Push _ (Request.command 0x20000042) [] _ rfl rfl (perform_command _ _), by decide⟩

/-- LatchedValuesStay (its second half), RegistersChangeOnlyByCommandOrReset, EveryStepKeepsMaxlen. -/
theorem witness_latched :
    (∃ t, step d16Push = .next t ∧ t.regs ≠ d16Push.regs) ∧ d16Push.regs.state = .done ∧ ¬ d16Push.ClearsAtNextEdge :=
  ⟨d16Push_step, by decide, State.not_clears _ rfl (by decide) (by decide)⟩

/-- D16 with a busy port and the word of START 8 on the pins, which no edge takes. -/
def d16Busy : State :=
  { d16 with port := .busy 3 ⟨false, 0⟩, pins := [Pins.present (Request.command 0x10000000)] }

/-- LatchedValuesStay: an edge that takes no request, with the word of START on the pins. -/
theorem witness_latched_busy :
    (∃ t, step d16Busy = .next t) ∧ d16Busy.regs.state = .done ∧ ¬ d16Busy.ClearsAtNextEdge := by
  refine ⟨⟨_, clockEdge_count d16Busy.nextPins d16Busy.sampled 2 _ rfl rfl⟩, by decide, ?_⟩
  simp [State.ClearsAtNextEdge, State.TakesCommand, d16Busy, State.nextPins, Pins.present]

/-- BusErrorExactlyWhenRuleSays: each of the four conditions alone, at the edges of its range, and a request with none. -/
theorem witness_bus_errors :
    answered (perform ⟨false, 0x01, 0⟩ a16) = some (true, 0, 0x15) ∧
    answered (perform ⟨false, 0x1C, 0⟩ a16) = some (true, 0, 0x15) ∧
    answered (perform ⟨true, 0x18, 0⟩ a16) = some (true, 0, 0x15) ∧
    answered (perform ⟨false, 0x00, 0⟩ a16) = some (true, 0, 0x15) ∧
    answered (perform ⟨true, 0x00, 0⟩ a16) = some (false, 0, 0x15) ∧
    answered (perform ⟨false, 0x14, 0⟩ a16) = some (false, 0x4100, 0x15) := by decide

/-- ResetEdgeResetsEverything, with a response due; OutputsAreZeroDuringReset. -/
theorem witness_reset_edge :
    ∃ (s : State) (p : Pins), s.port = .busy 5 ⟨false, 0⟩ ∧ s.port ≠ .unreset ∧ s.pins = p :: [] ∧ p.rstN = false :=
  ⟨{ a16 with port := .busy 5 ⟨false, 0⟩, pins := [⟨false, false, false, 0, 0⟩] }, _, rfl, by decide, rfl, rfl⟩

/-- FirstEdgeAfterResetMakesReady. -/
theorem witness_first_edge :
    ∃ s : State, s.pins = Pins.quiet :: [] ∧ s.port = .inReset ∧ Pins.quiet.rstN = true :=
  ⟨{ State.reset with pins := [Pins.quiet] }, rfl, rfl, rfl⟩

/-- StepRunsTheDecodedCommand and TransferPerformsTheRequest. -/
theorem witness_transfer :
    d16Push.port = .ready ∧ d16Push.pins = Pins.present (Request.command 0x20000042) :: [] ∧
    (Pins.present (Request.command 0x20000042)).rstN = true ∧
    (Pins.present (Request.command 0x20000042)).reqValid = true ∧
    (Pins.present (Request.command 0x20000042)).reqWrite = true ∧
    (Pins.present (Request.command 0x20000042)).reqAddr = 0x00 ∧
    decode (Pins.present (Request.command 0x20000042)).reqWdata = .legal (.push 0x42) ∧
    (∃ t, exec (.push 0x42) { d16Push with pins := [], freeIndex := d16Push.freeIndex + 1 } = .next t) ∧
    (d16Push.outPins true).reqReady = true ∧ d16Push.port ≠ .unreset :=
  ⟨rfl, rfl, rfl, rfl, rfl, rfl, by decide, ⟨_, exec_eq _ _⟩, rfl, by decide⟩

/-- PlacedWordRunsAtTheNextStep. -/
theorem witness_placed : ∃ t, execWord (BitVec.ofNat 32 0x30000000) a16 = .next t := ⟨_, execWord_eq _ _⟩

/-- ReadyBlockWaits. -/
theorem witness_waiting :
    ∃ s : State, s.port = .ready ∧ s.pins ≠ [] ∧ ∀ p ∈ s.pins, p.rstN = true ∧ p.reqValid = false :=
  ⟨{ a16 with pins := [Pins.quiet] }, rfl, by decide, by decide⟩

/-- EveryTransferIsAnsweredOnce, with a second request presented on the way. -/
theorem witness_answered :
    ∃ (s : State) (req : Request), s.port = .ready ∧ s.pins = Pins.present req :: [Pins.present req] ∧
      (∀ p ∈ [Pins.present req], p.rstN = true) ∧
      ∃ t resp, perform req { s with pins := [Pins.present req], freeIndex := s.freeIndex + 1 } = .next (t, resp) :=
  ⟨{ a16 with pins := [Pins.present ⟨false, 4, 0⟩, Pins.present ⟨false, 4, 0⟩] }, ⟨false, 4, 0⟩, rfl, rfl, by decide,
    let ⟨_, _, h, _⟩ := perform_total _ _
    ⟨_, _, h⟩⟩

/-- E3 with a host that writes CLEAR. -/
def e3Clear : State := { e3 with pins := [Pins.present (Request.command 0x40000000)] }

/-- OnlyStartClearResetLeaveError: a step that leaves ERROR by CLEAR. -/
theorem witness_step_leaves_error : ∃ t, step e3Clear = .next t ∧ e3Clear.regs.state = .error ∧ t.regs.state ≠ .error :=
  ⟨_, step_present e3Clear _ (Request.command 0x40000000) [] _ rfl rfl (perform_command _ _), by decide, by decide⟩

/-- StepStopsOnlyBeforeFirstReset: both cases. -/
theorem witness_stop :
    (∃ s : State, s.port = .unreset ∧ s.nextPins.rstN = true) ∧ a16.port ≠ .unreset :=
  ⟨⟨{ a16 with port := .unreset }, rfl, rfl⟩, by decide⟩

/-- EveryStepKeepsInvariant: a state that meets the invariant and steps. -/
theorem witness_invariant : a16.Inv ∧ ∃ t, step a16 = .next t :=
  ⟨a16_inv, a16.sampled, clockEdge_wait a16.nextPins a16.sampled rfl rfl rfl⟩

/-- A16 with a host that writes the command word `v`. -/
def a16Writes (v : Word) : State := { a16 with pins := [Pins.present (Request.command v)] }

/-- CountNeverWraps, its first half: from a state that meets the invariant, an edge takes CLEAR. -/
theorem witness_count_cleared :
    (a16Writes 0x40000000).Inv ∧ (a16Writes 0x40000000).ClearsAtNextEdge ∧ ∃ t, step (a16Writes 0x40000000) = .next t :=
  ⟨⟨a16_inv.regs, rfl⟩, .inr (.inr ⟨rfl, rfl, rfl, rfl, rfl, by decide⟩),
    ⟨_, step_present _ _ (Request.command 0x40000000) [] _ rfl rfl (perform_command _ _)⟩⟩

/-- CountNeverWraps, its second half: FINAL, which counts the padding byte. -/
theorem witness_count_grows :
    (a16Writes 0x30000000).Inv ∧ ¬ (a16Writes 0x30000000).ClearsAtNextEdge ∧
    ∃ t, step (a16Writes 0x30000000) = .next t ∧ t.regs.count = 2 :=
  ⟨⟨a16_inv.regs, rfl⟩, State.not_clears _ rfl (by decide) (by decide),
    ⟨_, step_present _ _ (Request.command 0x30000000) [] _ rfl rfl (perform_command _ _), by decide⟩⟩

/-- EveryStepKeepsHistory: a state in the middle of a computation that has a history and steps. -/
theorem witness_history :
    ∃ s t : State, s.regs.History ∧ s.regs.state = .active ∧ step s = .next t :=
  ⟨block (regsAfterPushes 1023 .w16 [0x41]), _,
    .inl (.inr ⟨.w16, [0x41], by decide, .inl rfl⟩), rfl,
    clockEdge_wait Pins.quiet (State.sampled (block (regsAfterPushes 1023 .w16 [0x41]))) rfl rfl rfl⟩

/-- DoneAlwaysMeansChecksum: a host that writes START 8 as soon as it can, and then FINAL as soon as it can, brings the block
from reset to DONE, whatever T_CMD is. -/
theorem witness_reachable_done : ∃ s, Reachable s ∧ s.regs.state = .done := by
  let lat := (Request.command 0x10000000).latency 0
  let fin := Pins.present (Request.command 0x30000000)
  let s0 : State :=
    { State.reset with
      pins := Pins.quiet :: Pins.present (Request.command 0x10000000) :: List.replicate (lat + 2) fin }
  have hlat : 1 ≤ lat := Request.latency_pos _ _
  have r1 := (Reachable.reset s0.pins).step (clockEdge_inReset Pins.quiet s0.sampled rfl rfl)
  have r2 := r1.step (step_present _ _ (Request.command 0x10000000) (List.replicate (lat + 2) fin) _ rfl rfl
    (perform_command _ _))
  have r3 := r2.runEdges (lat - 1) (runEdges_busy 0 (lat - 1) _ Response.ack (by simp [lat]; rfl)
    (fun p hp => by rw [List.eq_of_mem_replicate hp]; rfl))
  have hfin : ∀ p ∈ List.replicate (lat + 2) fin, p.rstN = true := fun p hp => by
    rw [List.eq_of_mem_replicate hp]; rfl
  have r4 := r3.step (clockEdge_respond _ _ Response.ack
    (State.nextPins_rstN _ fun p hp => hfin p (List.mem_of_mem_drop hp)) rfl)
  have r5 := r4.step (clockEdge_answered _ _ Response.ack
    (State.nextPins_rstN _ fun p hp => hfin p (List.mem_of_mem_drop (List.mem_of_mem_tail hp))) rfl)
  have hpins : (((List.replicate (lat + 2) fin).drop (lat - 1)).tail).tail = [fin] := by
    rw [List.drop_replicate, show lat + 2 - (lat - 1) = 3 by omega]; rfl
  have r6 := r5.step (step_present _ _ (Request.command 0x30000000) [] _ rfl hpins (perform_command _ _))
  exact ⟨_, r6, by decide⟩

/-- PaddingKeepsTheOriginalBytes: both clauses, at the first and the last padding byte. -/
theorem witness_padding :
    0 < ([0x41] : List Byte).length ∧ ([0x41] : List Byte).length ≤ 1 ∧ 1 < (padded .w32 [0x41]).length ∧
    3 < (padded .w32 [0x41]).length := by decide

/-- CommandsComputeTheChecksum, CksumProgramReadsTheChecksum and PaddingFirstGivesTheSameResult. -/
theorem witness_computation :
    a16.regs.maxlen.toNat ≤ 2 ^ 32 - 4 ∧ ([0x41, 0x42, 0x43] : List Byte).length ≤ a16.regs.maxlen.toNat ∧
    (padded .w32 [0x41, 0x42, 0x43]).length ≤ a16.regs.maxlen.toNat := by decide

/-- NothingCarriesOverAStart: two different states with the same MAX_LEN. -/
theorem witness_carry_over :
    a16.regs.maxlen = d16.regs.maxlen ∧ a16.regs ≠ d16.regs ∧
    (∃ t, execWords [(Line.start .w8).toWord, 0x50000000] a16 = .next t) ∧
    (∃ t, execWords [(Line.start .w8).toWord, 0x50000000] d16 = .next t) :=
  ⟨by decide, by decide, ⟨_, execWords_eq _ _⟩, ⟨_, execWords_eq _ _⟩⟩

end Sys2Proof.Tests
end

section
/-! PROOFS. The state's registers: what every command does to them, the invariant of 10_state.md R34 and the history of the
bytes pushed along every step, and the fields of STATUS. -/

namespace Sys2Proof.Machine

/-! ### What a command can do to the registers -/

/-- `r.Effect k r'`: a command of class `k` can take the registers `r` to `r'` (41_commands.md R140). A word that is illegal, or
legal in the wrong place, raises an error. -/
inductive Regs.Effect (r : Regs) : CommandClass → Regs → Prop
  | nop : r.Effect (.legal .nop) r
  | start (w : Width) : r.Effect (.legal (.start w.wsel)) (r.init w)
  | push (b : Byte) (active : r.state = .active) (room : r.count.toNat < r.maxlen.toNat) :
      r.Effect (.legal (.push b)) (r.assemble b)
  | final (active : r.state = .active) : r.Effect (.legal .final) r.pad.latchResult
  | clear : r.Effect (.legal .clear) (Regs.reset r.maxlen)
  | reject (k : CommandClass) (c : ErrorCode) (hc : c ≠ .noError) : r.Effect k (r.raiseError c)

theorem Regs.effect_afterInstr (i : Instr) (r : Regs) : r.Effect (.legal i) (r.afterInstr i) := by
  cases i with
  | nop => exact .nop
  | start wsel =>
    simp only [Regs.afterInstr]
    split
    next w hw => exact Width.wsel_of_ofWsel hw ▸ .start w
    next => exact .reject _ _ (by decide)
  | push b =>
    simp only [Regs.afterInstr]
    split
    next active =>
      split
      next => exact .reject _ _ (by decide)
      next room => exact .push b active (Nat.lt_of_not_le room)
    next => exact .reject _ _ (by decide)
  | final =>
    simp only [Regs.afterInstr]
    split
    next active => exact .final active
    next => exact .reject _ _ (by decide)
  | clear => exact .clear

theorem Regs.effect_afterWord (v : Word) (r : Regs) : r.Effect (decode v) (r.afterWord v) := by
  unfold Regs.afterWord
  split
  next i hi => exact hi ▸ r.effect_afterInstr i
  next => exact .reject _ _ (by decide)
  next => exact .reject _ _ (by decide)

/-- What one step does to the registers is what some command can do: a reset edge does what CLEAR does, and an edge that runs
no command does what NOP does. -/
theorem step_effect {s t : State} (h : step s = .next t) : ∃ k, s.regs.Effect k t.regs := by
  rcases step_regs h with ⟨-, e⟩ | ⟨-, -, -, -, -, e⟩ | e
  · exact ⟨.legal .clear, e ▸ .clear⟩
  · exact ⟨_, e ▸ Regs.effect_afterWord _ _⟩
  · exact ⟨.legal .nop, e ▸ .nop⟩

section
variable {r r' : Regs} {k : CommandClass}

/-- MAXLEN is a constant (10_state.md R32). -/
theorem Regs.Effect.maxlen_eq (h : r.Effect k r') : r'.maxlen = r.maxlen := by
  cases h <;> simp

/-- START and CLEAR alone write WIDTH (10_state.md R24). -/
theorem Regs.Effect.of_width_ne (h : r.Effect k r') (hne : r'.width ≠ r.width) :
    (∃ wsel, k = .legal (.start wsel)) ∨ k = .legal .clear := by
  cases h with
  | start w => exact .inl ⟨_, rfl⟩
  | clear => exact .inr rfl
  | nop => exact absurd rfl hne
  | push | final | reject => exact absurd (by simp) hne

/-- START, CLEAR and FINAL alone write RESULT and PADCNT (10_state.md R26, R27). -/
theorem Regs.Effect.of_result_or_padcnt_ne (h : r.Effect k r') (hne : r'.result ≠ r.result ∨ r'.padcnt ≠ r.padcnt) :
    (∃ wsel, k = .legal (.start wsel)) ∨ k = .legal .clear ∨ k = .legal .final := by
  cases h with
  | start w => exact .inl ⟨_, rfl⟩
  | clear => exact .inr (.inl rfl)
  | final => exact .inr (.inr rfl)
  | nop | push | reject => simp at hne

/-- Every command keeps the invariant (10_state.md R34). -/
theorem Regs.Effect.inv (h : r.Effect k r') (hi : r.Inv) : r'.Inv := by
  cases h with
  | nop => exact hi
  | start w => exact Regs.inv_init r w hi.maxlen_ge hi.maxlen_le
  | push b active room => exact hi.assemble b active room
  | final active => exact hi.final active
  | clear => exact Regs.inv_reset _ hi.maxlen_ge hi.maxlen_le
  | reject _ c hc => exact hi.raiseError c hc

/-- A command that does not set COUNT to 0 adds at most the three bytes of padding to it, and COUNT does not wrap
(10_state.md R28). -/
theorem Regs.Effect.count_bounds (h : r.Effect k r') (hi : r.Inv) (hs : ∀ wsel, k ≠ .legal (.start wsel))
    (hc : k ≠ .legal .clear) : r.count.toNat ≤ r'.count.toNat ∧ r'.count.toNat ≤ r.count.toNat + 3 := by
  cases h with
  | start w => exact absurd rfl (hs _)
  | clear => exact absurd rfl hc
  | nop => simp
  | reject => simp
  | push b active room =>
    have hm := hi.maxlen_le
    rw [Regs.assemble_count, count_succ_toNat _ (by omega)]
    omega
  | final active =>
    obtain ⟨-, -, -, hcount, -⟩ := hi.pad active
    have hpad := padLen_lt r.width r.count.toNat
    have h4 := r.width.lanes_le_four
    rw [Regs.latchResult_count, hcount]
    omega

end

/-! ### The invariant -/

/-- Every response is well formed: a bus error carries the data 0 (20_memory.md R57). -/
theorem perform_response_wellFormed {req : Request} {s t : State} {resp : Response}
    (h : perform req s = .next (t, resp)) : resp.wellFormed := by
  rcases perform_cases req s with ⟨-, -, e⟩ | ⟨_, v, -, -, -, e⟩ | e <;>
    (rw [e] at h; cases h; rfl)

/-- A step leaves the port reset, and the response it owes well formed. -/
theorem step_port_wellFormed {s t : State} (hp : s.port.wellFormed) (h : step s = .next t) : t.port.wellFormed := by
  rcases step_cases h with ⟨-, rfl⟩ | ⟨-, -, -, u, resp, hq, rfl⟩ | ⟨-, p, rfl, hcases⟩
  · rfl
  · exact perform_response_wellFormed hq
  · rcases hcases with ⟨-, rfl⟩ | ⟨-, -, rfl⟩ | ⟨resp, e, rfl⟩ | ⟨n, resp, e, rfl⟩ | ⟨resp, -, rfl⟩
    · rfl
    · rfl
    · rwa [e] at hp
    · rwa [e] at hp
    · rfl

theorem State.Inv.step {s t : State} (hi : s.Inv) (h : Machine.step s = .next t) : t.Inv :=
  have ⟨_, he⟩ := step_effect h
  ⟨he.inv hi.regs, step_port_wellFormed hi.port h⟩

/-- MAX_LEN as a number: its least legal value and what lies above it, cut off at the greatest (log entry 1). -/
theorem maxLen_toNat : Config.maxLen.toNat = min Config.maxLenAbove (2 ^ 32 - 4 - 1023) + 1023 := rfl

/-- The OPEN MAX_LEN lies in the range of 00_scope.md R6. -/
theorem maxLen_bounds : 1023 ≤ Config.maxLen.toNat ∧ Config.maxLen.toNat ≤ 2 ^ 32 - 4 := by
  rw [maxLen_toNat]
  omega

theorem State.inv_reset (pins : List Pins) : State.Inv { State.reset with pins := pins } :=
  ⟨Regs.inv_reset _ maxLen_bounds.1 maxLen_bounds.2, rfl⟩

theorem Reachable.inv {s : State} (h : Reachable s) : s.Inv :=
  h.induct State.inv_reset fun _ _ hi hs => hi.step hs

/-! ### The history of the bytes pushed -/

theorem Regs.Explained.reset (m : Word) : (Regs.reset m).Explained := .inl rfl

theorem Regs.Explained.pushes {m : Word} {S : List Byte} (w : Width) (h : S.length ≤ m.toNat) :
    (regsAfterPushes m w S).Explained := .inr ⟨w, S, h, .inl rfl⟩

theorem Regs.Explained.final {m : Word} {S : List Byte} (w : Width) (h : S.length ≤ m.toNat) :
    (regsAfterFinal m w S).Explained := .inr ⟨w, S, h, .inr rfl⟩

/-- In ACTIVE the registers are those of some bytes pushed (40_datapath.md R118). -/
theorem Regs.Explained.eq_of_active {r : Regs} (h : r.Explained) (ha : r.state = .active) :
    ∃ (m : Word) (w : Width) (S : List Byte), S.length ≤ m.toNat ∧ r = regsAfterPushes m w S := by
  rcases h with e | ⟨w, S, hS, e | e⟩
  · rw [e] at ha; cases ha
  · exact ⟨_, w, S, hS, e⟩
  · rw [e] at ha; cases ha

/-- In DONE the registers are those of a completed checksum (41_commands.md R160). -/
theorem Regs.Explained.eq_of_done {r : Regs} (h : r.Explained) (hd : r.state = .done) :
    ∃ (m : Word) (w : Width) (S : List Byte), S.length ≤ m.toNat ∧ r = regsAfterFinal m w S := by
  rcases h with e | ⟨w, S, hS, e | e⟩
  · rw [e] at hd; cases hd
  · rw [e] at hd; cases hd
  · exact ⟨_, w, S, hS, e⟩

/-- Outside ERROR no error has been met. -/
theorem Regs.History.explained {r : Regs} (h : r.History) (hne : r.state ≠ .error) : r.Explained := by
  rcases h with h | ⟨_, _, -, -, e⟩
  · exact h
  · rw [e] at hne; exact absurd rfl hne

/-- An error keeps what the registers say of the bytes (60_exceptions.md R180, R189). -/
theorem Regs.History.raiseError {r : Regs} (h : r.History) (c : ErrorCode) (hc : c ≠ .noError) :
    (r.raiseError c).History := by
  by_cases he : r.state = .error
  · rwa [Regs.raiseError_of_error _ _ he]
  · exact .inr ⟨r, c, h.explained he, hc, Regs.raiseError_of_ne _ _ he⟩

@[simp] theorem regsAfterPushes_maxlen (m : Word) (w : Width) (S : List Byte) : (regsAfterPushes m w S).maxlen = m := rfl

/-- COUNT is the number of bytes pushed, as long as that number fits in it. -/
theorem regsAfterPushes_count {m : Word} {S : List Byte} (w : Width) (h : S.length ≤ m.toNat) :
    (regsAfterPushes m w S).count.toNat = S.length :=
  Nat.mod_eq_of_lt (Nat.lt_of_le_of_lt h m.isLt)

/-- Every command keeps it that the registers tell the bytes pushed. -/
theorem Regs.Effect.history {r r' : Regs} {k : CommandClass} (h : r.Effect k r') (hh : r.History) : r'.History := by
  cases h with
  | nop => exact hh
  | start w => exact .inl (r.init_eq_regsAfterPushes w ▸ .pushes w (Nat.zero_le _))
  | push b active room =>
    obtain ⟨m, w, S, hS, rfl⟩ := (hh.explained (by simp [active])).eq_of_active active
    rw [regsAfterPushes_count w hS, regsAfterPushes_maxlen] at room
    exact .inl (regsAfterPushes_assemble m w S b ▸ .pushes w (by simpa using Nat.succ_le_of_lt room))
  | final active =>
    obtain ⟨m, w, S, hS, rfl⟩ := (hh.explained (by simp [active])).eq_of_active active
    exact .inl (regsAfterPushes_final m w S ▸ .final w hS)
  | clear => exact .inl (.reset _)
  | reject _ c hc => exact hh.raiseError c hc

theorem Reachable.history {s : State} (h : Reachable s) : s.regs.History :=
  h.induct (fun _ => .inl (.reset _)) fun _ _ hh hs =>
    have ⟨_, he⟩ := step_effect hs
    he.history hh

theorem checksum_lt (w : Width) (S : List Byte) : checksum w S < 2 ^ w.bits := Nat.mod_lt _ (Nat.two_pow_pos _)

/-- RESULT, COUNT and PADCNT of a completed computation as numbers: each fits in its register (41_commands.md R160). -/
theorem regsAfterFinal_toNat {m : Word} {S : List Byte} (w : Width) (hm : m.toNat ≤ 2 ^ 32 - 4) (hS : S.length ≤ m.toNat) :
    (regsAfterFinal m w S).result.toNat = checksum w S ∧
      (regsAfterFinal m w S).count.toNat = (padded w S).length ∧
      (regsAfterFinal m w S).padcnt.toNat = padLen w S.length := by
  have hpad := padLen_lt w S.length
  have h4 := w.lanes_le_four
  refine ⟨Nat.mod_eq_of_lt ?_, Nat.mod_eq_of_lt ?_, Nat.mod_eq_of_lt ?_⟩
  · exact Nat.lt_of_lt_of_le (checksum_lt w S) (Nat.le_of_dvd (by decide) w.pow_bits_dvd)
  · rw [padded_length]; omega
  · omega

/-! ### Nothing carries over a START -/

theorem decode_start_line (w : Width) : decode (Line.start w).toWord = .legal (.start w.wsel) := by
  cases w <;> decide

/-- The word of a START line is `init` on the registers (41_commands.md R143). -/
theorem Regs.afterWord_start (w : Width) (r : Regs) : r.afterWord (Line.start w).toWord = r.init w := by
  simp only [Regs.afterWord, decode_start_line, Regs.afterInstr, Width.ofWsel_wsel]

/-- START overwrites all but MAXLEN (10_state.md R35). -/
theorem Regs.init_congr (w : Width) {r₁ r₂ : Regs} (h : r₁.maxlen = r₂.maxlen) : r₁.init w = r₂.init w := by
  simp only [Regs.init, h]

/-! ### STATUS -/

/-- A field of `m` bits put at bit `n`, above what stands in the low `n` bits, is added to it. -/
theorem or_field_toNat {m : Nat} (a : Word) (b : BitVec m) (n : Nat) (ha : a.toNat < 2 ^ n) (hn : n + m ≤ 32) :
    (a ||| b.setWidth 32 <<< n).toNat = a.toNat + b.toNat * 2 ^ n ∧
      (a ||| b.setWidth 32 <<< n).toNat < 2 ^ (n + m) := by
  have hb : b.toNat * 2 ^ n + 2 ^ n ≤ 2 ^ (n + m) := by
    rw [← Nat.succ_mul, Nat.add_comm n m, Nat.pow_add]
    exact Nat.mul_le_mul_right _ b.isLt
  have h32 : 2 ^ (n + m) ≤ 2 ^ 32 := Nat.pow_le_pow_right (by decide) hn
  have e : (a ||| b.setWidth 32 <<< n).toNat = a.toNat + b.toNat * 2 ^ n := by
    rw [BitVec.toNat_or, BitVec.toNat_shiftLeft, BitVec.toNat_setWidth_of_le (by omega), Nat.shiftLeft_eq,
      Nat.mod_eq_of_lt (by omega), Nat.or_comm, ← Nat.shiftLeft_eq, ← Nat.shiftLeft_add_eq_or_of_lt ha,
      Nat.shiftLeft_eq, Nat.add_comm]
  exact ⟨e, by omega⟩

/-- STATUS as a number: its fields, each at its place (10_state.md R33). -/
theorem Regs.status_toNat (r : Regs) :
    r.status.toNat = r.state.code.toNat + r.width.wsel.toNat * 2 ^ 2 + r.lane.toNat * 2 ^ 4 + r.padcnt.toNat * 2 ^ 6
      + r.ecode.code.toNat * 2 ^ 8 := by
  have hstate : (r.state.code.setWidth 32).toNat = r.state.code.toNat := BitVec.toNat_setWidth_of_le (by decide)
  obtain ⟨hwidth, lt4⟩ := or_field_toNat _ r.width.wsel 2 (hstate.trans_lt r.state.code.isLt) (by decide)
  obtain ⟨hlane, lt6⟩ := or_field_toNat _ r.lane 4 lt4 (by decide)
  obtain ⟨hpadcnt, lt8⟩ := or_field_toNat _ r.padcnt 6 lt6 (by decide)
  obtain ⟨hecode, -⟩ := or_field_toNat _ r.ecode.code 8 lt8 (by decide)
  rw [Regs.status, hecode, hpadcnt, hlane, hwidth, hstate]

/-! ### The statements -/

/-- Settles O42: what a step does to the registers some command can do, and each command keeps the invariant. -/
theorem everyStepKeepsInvariant : Obligations.EveryStepKeepsInvariant := fun _ _ hi h => hi.step h

/-- Settles O16, by the padding lemma of the invariant. -/
theorem finalAppendsPadLenBytes : Obligations.FinalAppendsPadLenBytes := by
  intro s t hi active h
  rw [exec_eq] at h
  cases h
  obtain ⟨-, -, hmod, hcount, hpad⟩ := hi.pad active
  simp only [State.mapRegs_regs, Regs.afterInstr, if_pos active, Regs.latchResult_padcnt, Regs.latchResult_count]
  exact ⟨hpad, by rw [hcount, hpad], hmod⟩

/-- Settles O21: `exec` acts on the registers alone, and each register is written only by its own commands. -/
theorem commandsChangeOnlyTheirRegisters : Obligations.CommandsChangeOnlyTheirRegisters := by
  intro i s t h
  rw [exec_eq] at h
  cases h
  have he := s.regs.effect_afterInstr i
  refine ⟨rfl, he.maxlen_eq, fun hne => ?_, fun hne => ?_, fun hne => ?_⟩
  · simpa using he.of_width_ne hne
  · simpa using he.of_result_or_padcnt_ne (.inl hne)
  · simpa using he.of_result_or_padcnt_ne (.inr hne)

/-- Settles O39: no command writes MAXLEN, and a step does what some command can do. -/
theorem everyStepKeepsMaxlen : Obligations.EveryStepKeepsMaxlen := fun _ _ h =>
  have ⟨_, he⟩ := step_effect h
  he.maxlen_eq

/-- Settles O43: an edge that clears leaves the registers of CLEAR or START, and every other runs a word that adds at most the
padding. -/
theorem countNeverWraps : Obligations.CountNeverWraps := by
  intro s t hi h
  constructor
  · intro hc
    rcases step_of_clears h hc with e | ⟨w, -, e⟩ <;> rw [e] <;> rfl
  · intro hc
    have hle : t.regs.count.toNat ≤ s.regs.maxlen.toNat + 3 :=
      everyStepKeepsMaxlen s t h ▸ (hi.step h).regs.count_le
    rcases step_of_not_clears h hc with e | ⟨hstart, hclear, e⟩
    · rw [e] at hle ⊢
      exact ⟨Nat.le_refl _, Nat.le_add_right _ _, hle⟩
    · have he := e ▸ s.regs.effect_afterWord s.nextPins.reqWdata
      obtain ⟨hge, hle3⟩ := he.count_bounds hi.regs hstart hclear
      exact ⟨hge, hle3, hle⟩

/-- Settles O45: a reachable state has a history, which in DONE is that of a completed checksum. -/
theorem doneAlwaysMeansChecksum : Obligations.DoneAlwaysMeansChecksum := by
  intro s hs hd
  have hm := hs.inv.regs.maxlen_le
  obtain ⟨m, w, S, hS, e⟩ := (hs.history.explained (by simp [hd])).eq_of_done hd
  rw [e] at hm ⊢
  exact ⟨S, hS, regsAfterFinal_toNat w hm hS⟩

/-- Settles O56: after the START the registers are the same, and words act on the registers alone. -/
theorem nothingCarriesOverAStart : Obligations.NothingCarriesOverAStart := by
  intro s₁ s₂ t₁ t₂ w vs hm h₁ h₂
  rw [execWords_eq] at h₁ h₂
  cases h₁
  cases h₂
  simp only [State.mapRegs_regs, List.foldl_cons, Regs.afterWord_start, Regs.init_congr w hm]

/-- Settles O23: STATUS is the sum of its fields, each at its place. -/
theorem statusFieldsAtFixedBits : Obligations.StatusFieldsAtFixedBits := by
  refine ⟨fun r => ?_, rfl⟩
  have h1 := r.state.code.isLt
  have h2 := r.width.wsel.isLt
  have h3 := r.lane.isLt
  have h4 := r.padcnt.isLt
  have h5 := r.ecode.code.isLt
  rw [Regs.status_toNat]
  omega

/-- Settles O28: the reset values are those of the definition, and CLEAR gives them with its own MAXLEN. -/
theorem resetStateHoldsResetValues : Obligations.ResetStateHoldsResetValues :=
  ⟨rfl, rfl, rfl, rfl, rfl, rfl, rfl, rfl, rfl, rfl, rfl, rfl, fun s => exec_eq .clear s⟩

end Sys2Proof.Machine
end

section
/-! PROOFS. The register window: which requests are served, what a served read answers, and the bus error of every other
request (20_memory.md R55 to R58, R62). -/

namespace Sys2Proof.Machine

/-! ### The offsets -/

theorem RegName.offset_inj {m n : RegName} : m.offset = n.offset ↔ m = n := by
  constructor
  · intro h
    simpa using congrArg RegName.ofOffset h
  · exact congrArg RegName.offset

theorem RegName.offset_eq_zero (n : RegName) : n.offset = 0x00 ↔ n = .cmd := RegName.offset_inj (n := .cmd)

/-- The read-only registers are all but CMD (20_memory.md R55). -/
theorem RegName.offset_mem_readOnly (n : RegName) :
    n.offset ∈ ([0x04, 0x08, 0x0C, 0x10, 0x14, 0x18] : List (BitVec 8)) ↔ n ≠ .cmd := by
  cases n <;> decide

/-! ### Served requests -/

/-- A register stands at the request's offset and has access in the request's direction: CMD is written and every other
register is read (20_memory.md R55). -/
def Request.Served (req : Request) : Prop := ∃ n : RegName, req.addr = n.offset ∧ (req.write = true ↔ n = .cmd)

/-- At a register's offset a request is served exactly in that register's direction. -/
theorem Request.served_iff_of_addr {req : Request} {n : RegName} (ha : req.addr = n.offset) :
    req.Served ↔ (req.write = true ↔ n = .cmd) := by
  simp [Request.Served, ha, RegName.offset_inj]

/-- The four conditions of 20_memory.md R57 are those of a request that is not served. -/
theorem Request.not_served_iff (req : Request) :
    (req.addr.toNat % 4 ≠ 0 ∨ 0x1C ≤ req.addr.toNat ∨
      (req.write = true ∧ req.addr ∈ ([0x04, 0x08, 0x0C, 0x10, 0x14, 0x18] : List (BitVec 8))) ∨
      (req.write = false ∧ req.addr = 0x00)) ↔ ¬ req.Served := by
  rw [← or_assoc, ← RegName.ofOffset_eq_none]
  cases hn : RegName.ofOffset req.addr with
  | none =>
    have hno : ¬ req.Served := by
      rintro ⟨n, ha, -⟩
      simp [ha] at hn
    exact iff_of_true (.inl rfl) hno
  | some n =>
    have ha := RegName.ofOffset_eq_some _ _ hn
    rw [Request.served_iff_of_addr ha, ha, RegName.offset_mem_readOnly, RegName.offset_eq_zero]
    cases req.write <;> simp

/-- A read of a register that has a value to give answers it and keeps the state (20_memory.md R56). -/
theorem perform_read {s : State} {n : RegName} {v : Word} (d : Word) (h : s.regs.read n = some v) :
    perform ⟨false, n.offset, d⟩ s = .next (s, ⟨false, v⟩) := by
  simp [perform, h]

/-- Every request that is not served is a bus error and keeps the state (20_memory.md R57). -/
theorem perform_of_not_served {req : Request} (s : State) (h : ¬ req.Served) :
    perform req s = .next (s, Response.busError) := by
  rcases perform_cases req s with ⟨hw, ha, -⟩ | ⟨n, v, hw, ha, hr, -⟩ | e
  · exact absurd ⟨.cmd, ha, by simp [hw]⟩ h
  · have hn : n ≠ .cmd := by rintro rfl; cases hr
    exact absurd ⟨n, ha, by simp [hw, hn]⟩ h
  · exact e

/-- A served request is answered without an error (20_memory.md R56, R58). -/
theorem perform_err_of_served {req : Request} {s t : State} {resp : Response} (h : req.Served)
    (hp : perform req s = .next (t, resp)) : resp.err = false := by
  obtain ⟨write, addr, d⟩ := req
  obtain ⟨n, rfl : addr = n.offset, hd⟩ := h
  cases n with
  | cmd =>
    obtain rfl : write = true := hd.2 rfl
    cases (perform_command d s).symm.trans hp
    rfl
  | status | result | count | acc | wbuf | maxlen =>
    obtain rfl : write = false := by simpa using hd
    cases (perform_read d rfl).symm.trans hp
    rfl

/-! ### The statements -/

/-- Settles O25: the four conditions say that the request is not served, and a served one is answered without an error. -/
theorem busErrorExactlyWhenRuleSays : Obligations.BusErrorExactlyWhenRuleSays := by
  intro req s
  rw [Request.not_served_iff]
  refine ⟨perform_of_not_served s, ?_⟩
  rintro ⟨t, resp, hp, herr⟩ hserved
  simp [perform_err_of_served hserved hp] at herr

/-- Settles O24: each of the six offsets is that of a register that a read returns. -/
theorem readReturnsTheRegister : Obligations.ReadReturnsTheRegister := fun s d =>
  ⟨perform_read (n := .status) d s.regs.read_status, perform_read (n := .result) d s.regs.read_result,
    perform_read (n := .count) d s.regs.read_count, perform_read (n := .acc) d s.regs.read_acc,
    perform_read (n := .wbuf) d s.regs.read_wbuf, perform_read (n := .maxlen) d s.regs.read_maxlen⟩

/-- Settles O26: every command word completes, and its write is acknowledged. -/
theorem commandWriteIsAlwaysAcknowledged : Obligations.CommandWriteIsAlwaysAcknowledged := fun v s =>
  ⟨s.mapRegs (Regs.afterWord v), execWord_eq v s, perform_command v s⟩

/-- Settles O27: a read returns a register or is a bus error, and both keep the state. -/
theorem readsHaveNoSideEffect : Obligations.ReadsHaveNoSideEffect := by
  intro req s hread
  rcases perform_cases req s with ⟨hwrite, -, -⟩ | ⟨-, v, -, -, -, e⟩ | e
  · simp [hread] at hwrite
  · exact ⟨_, e⟩
  · exact ⟨_, e⟩

end Sys2Proof.Machine
end

section
/-! PROOFS. The encoding: a word is the word of its four fields, so the decoder, the masks of 30_encoding.md R87 and the
illegal words of R88 are questions about fields. -/

namespace Sys2Proof

/-! ### The fields of a word -/

/-- The four fields of 30_encoding.md R81 make up the whole word. -/
theorem append_fields (v : Word) : opField v ++ rsvField v ++ wselField v ++ dataField v = v := by
  simp only [opField, rsvField, wselField, dataField]
  iterate 3 rw [BitVec.extractLsb'_append_extractLsb'_eq_extractLsb' (by rfl)]
  exact BitVec.extractLsb'_eq_self

theorem eq_formatC_iff (v : Word) (op : BitVec 4) (wsel : BitVec 2) (data : Byte) :
    v = formatC op wsel data ↔ opField v = op ∧ rsvField v = 0 ∧ wselField v = wsel ∧ dataField v = data := by
  constructor
  · rintro rfl
    exact fields_formatC op wsel data
  · rintro ⟨rfl, hrsv, rfl, rfl⟩
    rw [formatC, ← hrsv, append_fields]

/-! ### The masks of 30_encoding.md R87 -/

/-- A mask acts on each field by itself. -/
theorem and_eq_formatC_iff (v mask : Word) (op : BitVec 4) (wsel : BitVec 2) (data : Byte) :
    v &&& mask = formatC op wsel data ↔
      opField v &&& opField mask = op ∧ rsvField v &&& rsvField mask = 0 ∧
        wselField v &&& wselField mask = wsel ∧ dataField v &&& dataField mask = data := by
  rw [eq_formatC_iff]
  simp only [opField, rsvField, wselField, dataField, BitVec.extractLsb'_and]

/-- The mask of START covers every field but WSEL. -/
theorem and_startMask_iff (v : Word) :
    v &&& 0xFFFFFCFF = 0x10000000 ↔ opField v = 1 ∧ rsvField v = 0 ∧ dataField v = 0 := by
  have hop : opField 0xFFFFFCFF = BitVec.allOnes 4 := by decide
  have hrsv : rsvField 0xFFFFFCFF = BitVec.allOnes 18 := by decide
  have hwsel : wselField 0xFFFFFCFF = 0#2 := by decide
  have hdata : dataField 0xFFFFFCFF = BitVec.allOnes 8 := by decide
  have h : v &&& 0xFFFFFCFF = 0x10000000 ↔ _ := and_eq_formatC_iff v 0xFFFFFCFF 1 0 0
  rw [hop, hrsv, hwsel, hdata] at h
  simpa only [BitVec.and_allOnes, BitVec.and_zero, BitVec.ofNat_eq_ofNat, true_and] using h

/-- The mask of PUSH covers every field but DATA. -/
theorem and_pushMask_iff (v : Word) :
    v &&& 0xFFFFFF00 = 0x20000000 ↔ opField v = 2 ∧ rsvField v = 0 ∧ wselField v = 0 := by
  have hop : opField 0xFFFFFF00 = BitVec.allOnes 4 := by decide
  have hrsv : rsvField 0xFFFFFF00 = BitVec.allOnes 18 := by decide
  have hwsel : wselField 0xFFFFFF00 = BitVec.allOnes 2 := by decide
  have hdata : dataField 0xFFFFFF00 = 0#8 := by decide
  have h : v &&& 0xFFFFFF00 = 0x20000000 ↔ _ := and_eq_formatC_iff v 0xFFFFFF00 2 0 0
  rw [hop, hrsv, hwsel, hdata] at h
  simpa only [BitVec.and_allOnes, BitVec.and_zero, BitVec.ofNat_eq_ofNat, and_true] using h

/-- The mask of NOP, FINAL and CLEAR covers the whole word. -/
theorem and_fullMask (v : Word) : v &&& 0xFFFFFFFF = v := BitVec.and_allOnes

/-! ### What the decoder answers -/

theorem Instr.wellFormed_start_iff : ∀ wsel : BitVec 2, (Instr.start wsel).wellFormed = true ↔ wsel.toNat < 3 := by
  decide

/-- The decoder answers an instruction exactly on that instruction's own word, and only well-formed ones. -/
theorem decode_legal_iff_encode (v : Word) (i : Instr) :
    decode v = .legal i ↔ i.wellFormed = true ∧ v = encode i := by
  rw [decode_legal_iff, ← BitVec.toNat_inj, encode_toNat]
  cases i with
  | start wsel => rw [Instr.wellFormed_start_iff]
  | nop | push | final | clear => exact (and_iff_right rfl).symm

theorem decode_nop_iff (v : Word) : decode v = .legal .nop ↔ v = 0x00000000 :=
  (decode_legal_iff_encode v .nop).trans (and_iff_right rfl)

theorem decode_start_iff (v : Word) (wsel : BitVec 2) :
    decode v = .legal (.start wsel) ↔ v &&& 0xFFFFFCFF = 0x10000000 ∧ wsel ≠ 3 ∧ wselField v = wsel := by
  rw [decode_legal_iff_encode, encode, eq_formatC_iff, and_startMask_iff]
  simp only [Instr.wellFormed, Instr.op, bne_iff_ne]
  tauto

theorem decode_push_iff (v : Word) (b : Byte) :
    decode v = .legal (.push b) ↔ v &&& 0xFFFFFF00 = 0x20000000 ∧ dataField v = b := by
  rw [decode_legal_iff_encode, encode, eq_formatC_iff, and_pushMask_iff]
  simp only [Instr.wellFormed, Instr.op]
  tauto

theorem decode_final_iff (v : Word) : decode v = .legal .final ↔ v = 0x30000000 :=
  (decode_legal_iff_encode v .final).trans (and_iff_right rfl)

theorem decode_clear_iff (v : Word) : decode v = .legal .clear ↔ v = 0x40000000 :=
  (decode_legal_iff_encode v .clear).trans (and_iff_right rfl)

/-- The words of START are three, one for each width (30_encoding.md R87, column "legal words"). -/
theorem exists_decode_start_iff (v : Word) :
    (∃ wsel, decode v = .legal (.start wsel)) ↔ v = 0x10000000 ∨ v = 0x10000100 ∨ v = 0x10000200 := by
  constructor
  · rintro ⟨wsel, h⟩
    obtain ⟨hwf, rfl⟩ := (decode_legal_iff_encode v _).1 h
    revert wsel
    decide
  · rintro (rfl | rfl | rfl)
    exacts [⟨0, by decide⟩, ⟨1, by decide⟩, ⟨2, by decide⟩]

/-- ILLEGAL_WIDTH is START with the code 3 and every other field 0 (30_encoding.md R88). -/
theorem decode_illegalWidth_iff (v : Word) : decode v = .illegalWidth ↔ v = 0x10000300 := by
  have hfields : v = 0x10000300 ↔ _ := eq_formatC_iff v 1 3 0
  rw [hfields]
  by_cases hop : opField v = 1
  · have hdec : decode v = if rsvField v ≠ 0 ∨ dataField v ≠ 0 then .illegalOpcode
        else if wselField v = 3 then .illegalWidth else .legal (.start (wselField v)) := by simp [decode, hop]
    rw [hdec]
    split_ifs with hbad hwsel
    · exact iff_of_false (by simp) fun ⟨_, hrsv, _, hdata⟩ => hbad.elim (· hrsv) (· hdata)
    · obtain ⟨hrsv, hdata⟩ := not_or.1 hbad
      exact iff_of_true rfl ⟨hop, not_not.1 hrsv, hwsel, not_not.1 hdata⟩
    · exact iff_of_false (by simp) fun ⟨_, _, h, _⟩ => hwsel h
  · refine iff_of_false ?_ fun h => hop h.1
    unfold decode
    split_ifs <;> simp

/-- The decoder is total: ILLEGAL_OPCODE is what is neither ILLEGAL_WIDTH nor an instruction (30_encoding.md R86). -/
theorem decode_illegalOpcode_iff (v : Word) :
    decode v = .illegalOpcode ↔ decode v ≠ .illegalWidth ∧ ∀ i, decode v ≠ .legal i := by
  cases decode v <;> simp

/-- The rows of 30_encoding.md R87 are all the instructions there are. -/
theorem forall_decode_ne_legal_iff (v : Word) :
    (∀ i, decode v ≠ .legal i) ↔
      decode v ≠ .legal .nop ∧ (¬ ∃ wsel, decode v = .legal (.start wsel)) ∧ (¬ ∃ b, decode v = .legal (.push b)) ∧
        decode v ≠ .legal .final ∧ decode v ≠ .legal .clear := by
  constructor
  · intro h
    exact ⟨h _, fun ⟨_, e⟩ => h _ e, fun ⟨_, e⟩ => h _ e, h _, h _⟩
  · rintro ⟨hnop, hstart, hpush, hfinal, hclear⟩ i
    cases i with
    | nop => exact hnop
    | start wsel => exact fun e => hstart ⟨wsel, e⟩
    | push b => exact fun e => hpush ⟨b, e⟩
    | final => exact hfinal
    | clear => exact hclear

/-! ### The statements -/

/-- Settles O4: the decoder answers an instruction exactly on that instruction's own word. -/
theorem decodeAndEncodeAgree : Obligations.DecodeAndEncodeAgree := by
  constructor
  · intro i hwf
    exact (decode_legal_iff_encode _ i).2 ⟨hwf, rfl⟩
  · intro v i h
    obtain ⟨hwf, hv⟩ := (decode_legal_iff_encode v i).1 h
    exact ⟨hwf, hv.symm⟩

/-- Settles O2: each row's mask covers the fields that the row fixes. -/
theorem wordSelectsCommandByMaskAndMatch : Obligations.WordSelectsCommandByMaskAndMatch := by
  intro v
  simp only [and_fullMask]
  refine ⟨decode_nop_iff v, fun wsel => ?_, fun b => ?_, decode_final_iff v, decode_clear_iff v⟩
  · rw [decode_start_iff, eq_comm (a := wselField v), ← BitVec.toNat_inj (x := wsel) (y := wselField v), wselField_toNat]
  · rw [decode_push_iff, eq_comm (a := dataField v), ← BitVec.toNat_inj (x := b) (y := dataField v), dataField_toNat]

/-- Settles O3: the decoder is total, and the words of each row are known. -/
theorem illegalWordsAreTheRest : Obligations.IllegalWordsAreTheRest := by
  intro v
  have hpush : (∃ b, decode v = .legal (.push b)) ↔ v &&& 0xFFFFFF00 = 0x20000000 := by simp [decode_push_iff]
  refine ⟨decode_illegalWidth_iff v, ?_⟩
  rw [decode_illegalOpcode_iff, forall_decode_ne_legal_iff, exists_decode_start_iff, hpush, ne_eq, decode_illegalWidth_iff,
    ne_eq, decode_nop_iff, ne_eq, decode_final_iff, ne_eq, decode_clear_iff]
  tauto

end Sys2Proof
end

section
/-! PROOFS. The datapath: the padding and its length, the words of each width, and the registers after START and the assembly
of any bytes (40_datapath.md R101 to R118). -/

namespace Sys2Proof.Machine

/-! ### Padding -/

/-- padlen(n, W) is the least number of bytes that makes the length a multiple of L (40_datapath.md R103, R104). -/
theorem padLen_le {w : Width} {n p : Nat} (hp : (n + p) % w.lanes = 0) : padLen w n ≤ p := by
  have hmod : padLen w n ≡ p [MOD w.lanes] := Nat.ModEq.add_left_cancel' n ((add_padLen_mod w n).trans hp.symm)
  calc padLen w n = padLen w n % w.lanes := (Nat.mod_eq_of_lt (padLen_lt w n)).symm
    _ = p % w.lanes := hmod
    _ ≤ p := Nat.mod_le p w.lanes

theorem padLen_w16 (n : Nat) : padLen .w16 n = n % 2 := by
  simp only [padLen, Width.lanes]; omega

theorem padded_w8 (S : List Byte) : padded .w8 S = S := by
  have h : padLen .w8 S.length = 0 := (padLen_eq_zero .w8 S.length).2 (Nat.mod_one _)
  rw [padded, h, List.replicate_zero, List.append_nil]

theorem padded_w16 (S : List Byte) : padded .w16 S = if S.length % 2 = 1 then S ++ [0x58] else S := by
  rw [padded, padLen_w16]
  split_ifs with hodd
  · rw [hodd]; rfl
  · rw [Nat.mod_two_ne_one.1 hodd, List.replicate_zero, List.append_nil]

/-- The padded length is the least multiple of L that is at least |S| (40_datapath.md R104). -/
theorem padded_length_le {w : Width} {S : List Byte} {m : Nat} (hm : m % w.lanes = 0) (hS : S.length ≤ m) :
    (padded w S).length ≤ m := by
  obtain ⟨p, rfl⟩ := Nat.exists_eq_add_of_le hS
  rw [padded_length]
  exact Nat.add_le_add_left (padLen_le hm) _

theorem padded_getElem?_of_lt (w : Width) {S : List Byte} {i : Nat} (h : i < S.length) : (padded w S)[i]? = S[i]? :=
  List.getElem?_append_left h

theorem padded_getElem?_of_ge {w : Width} {S : List Byte} {i : Nat} (h : S.length ≤ i) (hi : i < (padded w S).length) :
    (padded w S)[i]? = some Config.padByte := by
  rw [padded_length] at hi
  rw [padded, List.getElem?_append_right h, List.getElem?_replicate_of_lt (by omega)]

/-! ### Words -/

/-- The next byte of a group is OR-ed in below the bytes that are in (40_datapath.md R106). -/
theorem groupSum_succ_or (w : Width) (T : List Byte) (k : Nat) {n : Nat} (h : n < w.lanes) :
    groupSum w T k (n + 1) = groupSum w T k n ||| byteAt T (k + n) <<< (8 * (w.lanes - 1 - n)) :=
  (groupSum_succ w T k n).trans (groupSum_or w T k n h (T.getD (k + n) 0)).symm

theorem wordAt_w8 (T : List Byte) (k : Nat) : wordAt .w8 T k = byteAt T k := by
  simp [wordAt, groupSum, Width.lanes]

theorem wordAt_w16 (T : List Byte) (k : Nat) :
    wordAt .w16 T k = (byteAt T (2 * k) <<< 8) ||| byteAt T (2 * k + 1) := by
  have hgroup : wordAt .w16 T k = groupSum .w16 T (2 * k) 2 := by rw [Nat.mul_comm]; rfl
  rw [hgroup, groupSum_succ_or _ _ _ (by decide), groupSum_succ_or _ _ _ (by decide)]
  simp [Width.lanes]

theorem wordAt_w32 (T : List Byte) (k : Nat) :
    wordAt .w32 T k = (byteAt T (4 * k) <<< 24) ||| (byteAt T (4 * k + 1) <<< 16)
      ||| (byteAt T (4 * k + 2) <<< 8) ||| byteAt T (4 * k + 3) := by
  have hgroup : wordAt .w32 T k = groupSum .w32 T (4 * k) 4 := by rw [Nat.mul_comm]; rfl
  rw [hgroup, groupSum_succ_or _ _ _ (by decide), groupSum_succ_or _ _ _ (by decide),
    groupSum_succ_or _ _ _ (by decide), groupSum_succ_or _ _ _ (by decide)]
  simp [Width.lanes]

/-- A word of L bytes fits in W bits (40_datapath.md R106, R113). -/
theorem wordAt_lt (w : Width) (T : List Byte) (k : Nat) : wordAt w T k < 2 ^ w.bits := by
  have h := (groupSum_bounds w T (k * w.lanes) w.lanes (Nat.le_refl _)).1
  rw [Nat.sub_self, Nat.mul_zero, Nat.pow_zero, ← w.bits_eq_eight_mul_lanes] at h
  exact h

/-! ### Checksums -/

/-- At width 8 the words of a sequence are its bytes (40_datapath.md R108). -/
theorem wordSum_w8 (S : List Byte) : wordSum .w8 S S.length = (S.map BitVec.toNat).sum := by
  have hbytes : (List.range S.length).map (wordAt .w8 S) = S.map BitVec.toNat := by
    refine List.ext_getElem (by simp) fun i hi _ => ?_
    have hS : i < S.length := by simpa using hi
    simp [wordAt_w8, byteAt, hS]
  rw [wordSum, hbytes]

theorem checksum_w8 (S : List Byte) : checksum .w8 S = checksum8 S := by
  rw [checksum, padded_w8, Width.lanes, Nat.div_one, wordSum_w8]; rfl

theorem checksum_w16 (S : List Byte) : checksum .w16 S = checksum16 S := by
  rw [checksum, wordSum, funext (wordAt_w16 (padded .w16 S))]; rfl

theorem checksum_w32 (S : List Byte) : checksum .w32 S = checksum32 S := by
  rw [checksum, wordSum, funext (wordAt_w32 (padded .w32 S))]; rfl

/-! ### The assembler -/

/-- From the registers of S, the bytes T one after the other lead to the registers of S and T (40_datapath.md R118). -/
theorem foldl_assemble_regsAfterPushes (m : Word) (w : Width) (S T : List Byte) :
    T.foldl (fun x b => x.assemble b) (regsAfterPushes m w S) = regsAfterPushes m w (S ++ T) := by
  induction T generalizing S with
  | nil => rw [List.foldl_nil, List.append_nil]
  | cons b T ih => rw [List.foldl_cons, regsAfterPushes_assemble, ih, List.append_assoc, List.singleton_append]

/-- After START and the bytes T the registers are those of T (40_datapath.md R118). -/
theorem foldl_assemble_init (r : Regs) (w : Width) (T : List Byte) :
    T.foldl (fun x b => x.assemble b) (r.init w) = regsAfterPushes r.maxlen w T := by
  rw [r.init_eq_regsAfterPushes, foldl_assemble_regsAfterPushes, List.nil_append]

theorem regsAfterPushes_acc (m : Word) (w : Width) (T : List Byte) :
    (regsAfterPushes m w T).acc.toNat = wordSum w T (T.length / w.lanes) % 2 ^ 32 := BitVec.toNat_ofNat _ _

/-- The low W bits of ACC lose nothing to the wrap at 32 bits (40_datapath.md R115). -/
theorem regsAfterPushes_acc_mod (m : Word) (w : Width) (T : List Byte) :
    (regsAfterPushes m w T).acc.toNat % 2 ^ w.bits = wordSum w T (T.length / w.lanes) % 2 ^ w.bits := by
  rw [regsAfterPushes_acc, Nat.mod_mod_of_dvd _ w.pow_bits_dvd]

/-! ### The statements -/

/-- Settles O46: padlen is 0, the length mod 2, and the least number that makes the length a multiple of 4. -/
theorem paddingAtEachWidth : Obligations.PaddingAtEachWidth := fun S =>
  ⟨padded_w8 S, padded_w16 S, padLen .w32 S.length, rfl, add_padLen_mod .w32 S.length,
    fun _ hq => padLen_le (w := .w32) hq⟩

/-- Settles O47: padlen makes the length a multiple of L and is the least number that does. -/
theorem paddedLengthIsLeastMultiple : Obligations.PaddedLengthIsLeastMultiple := by
  intro w S
  refine ⟨padded_length w S, ?_, ?_, fun _ hm hS => padded_length_le hm hS⟩
  · rw [padded_length]; exact add_padLen_mod w S.length
  · rw [padded_length]; exact Nat.le_add_right _ _

/-- Settles O48: the padding stands after the original bytes, and each of its bytes is PAD_BYTE. -/
theorem paddingKeepsTheOriginalBytes : Obligations.PaddingKeepsTheOriginalBytes := fun w _ _ =>
  ⟨padded_getElem?_of_lt w, padded_getElem?_of_ge⟩

/-- Settles O49: the words of each width are the terms that its own rule adds. -/
theorem threeChecksumsAreOneFunction : Obligations.ThreeChecksumsAreOneFunction := fun S =>
  ⟨checksum_w8 S, checksum_w16 S, checksum_w32 S⟩

/-- Settles O50: a checksum is reduced mod 2^W, and a word has L bytes. -/
theorem checksumAndWordsAreInRange : Obligations.ChecksumAndWordsAreInRange := fun w S =>
  ⟨Nat.le_sub_one_of_lt (checksum_lt w S), checksum_w8 S ▸ Nat.le_of_lt_succ (checksum_lt .w8 S),
    checksum_w16 S ▸ Nat.le_of_lt_succ (checksum_lt .w16 S), checksum_w32 S ▸ Nat.le_of_lt_succ (checksum_lt .w32 S),
    wordAt_lt w S⟩

/-- Settles O51: 2^W divides 2^32, and ACC is the sum of the complete words mod 2^32. -/
theorem wrappingAccumulatorIsExact : Obligations.WrappingAccumulatorIsExact := by
  refine ⟨fun w xs => ⟨w.pow_bits_dvd, ?_, ?_⟩, fun r w T => ?_, fun r w S => ?_⟩
  · exact (Nat.mod_mod_of_dvd xs.sum w.pow_bits_dvd).symm
  · rw [wrappedSum_eq]
  · rw [foldl_assemble_init]
    exact ⟨(regsAfterPushes_acc _ w T).trans (wrappedSum_eq _).symm, regsAfterPushes_acc_mod _ w T⟩
  · rw [foldl_assemble_init, Width.and_mask_toNat, regsAfterPushes_acc_mod, checksum]

/-- Settles O52: the registers after START and T are those of T, and ACC holds the sum mod 2^32. -/
theorem assemblerInvariant : Obligations.AssemblerInvariant := by
  intro r w T
  rw [foldl_assemble_init, ← regsAfterPushes_acc r.maxlen, BitVec.ofNat_toNat, BitVec.setWidth_eq]
  rfl

/-- Settles O10: the word is WBUF with the byte in its place, and a 32-bit sum is one mod 2^32. -/
theorem assembleTakesOneByte : Obligations.AssembleTakesOneByte := by
  intro r b _
  refine ⟨(r.wordWith b).toNat, r.wordWith_toNat b, fun hlast => ?_, fun hnot => ?_⟩
  · rw [r.assemble_of_last b hlast, ← BitVec.toNat_add, BitVec.ofNat_toNat, BitVec.setWidth_eq]
  · rw [r.assemble_of_not_last b hnot, BitVec.ofNat_toNat, BitVec.setWidth_eq]

end Sys2Proof.Machine
end

section
/-! PROOFS. The commands: what each of the five does in every control state, the state-transition table, the values that FINAL
latches, and the computation that START, the pushes and FINAL make up (41_commands.md). -/

namespace Sys2Proof.Machine

/-! ### A command that is rejected, or ignored -/

theorem State.mapRegs_of_eq {f : Regs → Regs} {s : State} (h : f s.regs = s.regs) : s.mapRegs f = s := by
  rw [State.mapRegs, h]

section
variable {f : Regs → Regs} {c : ErrorCode} {s : State}

/-- In ERROR a rejected command is ignored (60_exceptions.md R187). -/
theorem State.mapRegs_of_ignored (h : f s.regs = s.regs.raiseError c) (he : s.regs.state = .error) : s.mapRegs f = s :=
  State.mapRegs_of_eq (h.trans (Regs.raiseError_of_error c _ he))

/-- Outside ERROR a rejected command leaves its code (60_exceptions.md R180). -/
theorem State.mapRegs_of_rejected (h : f s.regs = s.regs.raiseError c) (hne : s.regs.state ≠ .error) :
    (s.mapRegs f).regs.state = .error ∧ (s.mapRegs f).regs.ecode = c := by
  rw [State.mapRegs_regs, h, Regs.raiseError_of_ne c _ hne]
  exact ⟨rfl, rfl⟩

end

/-! ### Commands in each control state -/

/-- In ERROR a command is START, or CLEAR, or changes nothing (60_exceptions.md R187, R190). -/
theorem Regs.Effect.of_error {r r' : Regs} {k : CommandClass} (h : r.Effect k r') (he : r.state = .error) :
    (∃ w : Width, k = .legal (.start w.wsel) ∧ r'.state = .active) ∨ (k = .legal .clear ∧ r'.state = .idle) ∨ r' = r := by
  cases h with
  | nop => exact .inr (.inr rfl)
  | start w => exact .inl ⟨w, rfl, rfl⟩
  | clear => exact .inr (.inl ⟨rfl, rfl⟩)
  | reject _ c => exact .inr (.inr (r.raiseError_of_error c he))
  | push b active => simp [he] at active
  | final active => simp [he] at active

/-- Outside a computation a command that is no START and no CLEAR keeps the values that FINAL latched
(41_commands.md R147). -/
theorem Regs.Effect.latched_eq {r r' : Regs} {k : CommandClass} (h : r.Effect k r')
    (hr : r.state = .done ∨ r.state = .error) (hs : ∀ wsel, k ≠ .legal (.start wsel)) (hc : k ≠ .legal .clear) :
    r'.width = r.width ∧ r'.count = r.count ∧ r'.padcnt = r.padcnt ∧ r'.acc = r.acc ∧ r'.result = r.result ∧
      (r'.state = .done ∨ r'.state = .error) := by
  cases h with
  | nop => exact ⟨rfl, rfl, rfl, rfl, rfl, hr⟩
  | reject => simp
  | start w => exact absurd rfl (hs _)
  | clear => exact absurd rfl hc
  | push b active => simp [active] at hr
  | final active => simp [active] at hr

theorem effect_of_execWord {v : Word} {s t : State} (h : execWord v s = .next t) : s.regs.Effect (decode v) t.regs := by
  rw [execWord_eq] at h
  cases h
  exact s.regs.effect_afterWord v

/-- The rows of WSEL in 30_encoding.md R84. -/
theorem Width.eq_wsel {wsel : BitVec 2} {w : Width}
    (h : (wsel = 0 ∧ w = .w8) ∨ (wsel = 1 ∧ w = .w16) ∨ (wsel = 2 ∧ w = .w32)) : wsel = w.wsel := by
  rcases h with ⟨rfl, rfl⟩ | ⟨rfl, rfl⟩ | ⟨rfl, rfl⟩ <;> rfl

theorem Regs.afterInstr_start (w : Width) (r : Regs) : r.afterInstr (.start w.wsel) = r.init w := by
  rw [Regs.afterInstr, Width.ofWsel_wsel]

/-- PUSH outside a computation (41_commands.md R144). -/
theorem Regs.afterInstr_push_of_not_active (b : Byte) {r : Regs} (h : r.state ≠ .active) :
    r.afterInstr (.push b) = r.raiseError .sequence := by
  rw [Regs.afterInstr, if_neg h]

/-- PUSH once MAX_LEN bytes are in (41_commands.md R144). -/
theorem Regs.afterInstr_push_of_full (b : Byte) {r : Regs} (active : r.state = .active)
    (full : r.maxlen.toNat ≤ r.count.toNat) : r.afterInstr (.push b) = r.raiseError .lengthOverflow := by
  rw [Regs.afterInstr, if_pos active, if_pos full]

/-- PUSH with room for its byte (41_commands.md R144). -/
theorem Regs.afterInstr_push_of_room (b : Byte) {r : Regs} (active : r.state = .active)
    (room : r.count.toNat < r.maxlen.toNat) : r.afterInstr (.push b) = r.assemble b := by
  rw [Regs.afterInstr, if_pos active, if_neg (Nat.not_le_of_lt room)]

/-- FINAL outside a computation (41_commands.md R146). -/
theorem Regs.afterInstr_final_of_not_active {r : Regs} (h : r.state ≠ .active) :
    r.afterInstr .final = r.raiseError .sequence := by
  rw [Regs.afterInstr, if_neg h]

/-- FINAL in a computation (41_commands.md R146). -/
theorem Regs.afterInstr_final_of_active {r : Regs} (active : r.state = .active) :
    r.afterInstr .final = r.pad.latchResult := by
  rw [Regs.afterInstr, if_pos active]

/-- The word of a legal line runs its instruction. -/
theorem Regs.afterWord_of_legal {v : Word} {i : Instr} (h : decode v = .legal i) (r : Regs) :
    r.afterWord v = r.afterInstr i := by
  rw [Regs.afterWord, h]

/-- The word of a PUSH line (30_encoding.md R90). -/
theorem decode_push_line (b : Byte) : decode (Line.push b).toWord = .legal (.push b) := by
  have hor : 0x20000000 ||| b.toNat = 2 * 2 ^ 28 + b.toNat := (Nat.shiftLeft_add_eq_or_of_lt b.isLt 0x200000).symm
  rw [decode_legal_iff, Line.toWord, BitVec.toNat_or, zext32_toNat]
  exact hor

/-! ### The padding of FINAL in closed form -/

/-- One padding byte above `n` of them (40_datapath.md R117). -/
theorem padByte_or_padBytes {n : Nat} (h : n < 4) :
    zext32 Config.padByte <<< (8 * n) ||| BitVec.ofNat 32 (0x58585858 % 2 ^ (8 * n)) =
      BitVec.ofNat 32 (0x58585858 % 2 ^ (8 * (n + 1))) := by
  interval_cases n <;> decide

/-- Where a word lacks `n + 1` bytes, a padding byte goes right above the `n` after it (40_datapath.md R107, R117). -/
theorem Regs.wordWith_padByte_or (n : Nat) (r : Regs) (h : r.lane.toNat + (n + 1) = r.width.lanes) :
    r.wordWith Config.padByte ||| BitVec.ofNat 32 (0x58585858 % 2 ^ (8 * n)) =
      r.wbuf ||| BitVec.ofNat 32 (0x58585858 % 2 ^ (8 * (n + 1))) := by
  have h4 := r.width.lanes_le_four
  have hshift : r.shift = 8 * n := by rw [Regs.shift]; omega
  rw [Regs.wordWith, hshift, BitVec.or_assoc, padByte_or_padBytes (by omega)]

/-- The padding bytes that complete a word fill its lower places, and the word is added to ACC (40_datapath.md R117). -/
theorem Regs.assembleMany_fill (n : Nat) (r : Regs) (h : r.lane.toNat + (n + 1) = r.width.lanes) :
    r.assembleMany (n + 1) = { r with
      count := r.count + BitVec.ofNat 32 (n + 1)
      acc := r.acc + (r.wbuf ||| BitVec.ofNat 32 (0x58585858 % 2 ^ (8 * (n + 1))))
      wbuf := 0, lane := 0 } := by
  induction n generalizing r with
  | zero =>
    rw [Regs.assembleMany_succ, Regs.assembleMany_zero, Regs.assemble_of_last _ _ (by omega), ← r.wordWith_padByte_or 0 h]
    simp
  | succ n ih =>
    have hrest : (r.assemble Config.padByte).lane.toNat + (n + 1) = (r.assemble Config.padByte).width.lanes := by
      rw [Regs.assemble_lane _ _ (by omega), Regs.assemble_width, Nat.mod_eq_of_lt (by omega)]
      omega
    have hcount : r.count + 1 + BitVec.ofNat 32 (n + 1) = r.count + BitVec.ofNat 32 (n + 1 + 1) := by
      rw [BitVec.add_assoc, BitVec.add_comm 1, BitVec.ofNat_add (x := n + 1)]; rfl
    rw [Regs.assembleMany_succ, ih _ hrest, Regs.assemble_of_not_last _ _ (by omega), ← r.wordWith_padByte_or (n + 1) h,
      ← hcount]

/-- The padding of FINAL where a word is begun: the bytes that complete it (40_datapath.md R117). -/
theorem Regs.pad_of_lane_ne_zero (r : Regs) (h : r.lane.toNat < r.width.lanes) (hz : r.lane ≠ 0) :
    r.pad = { r with
      lane := 0
      padcnt := BitVec.ofNat 2 ((r.width.lanes - r.lane.toNat) % r.width.lanes)
      count := r.count + BitVec.ofNat 32 ((r.width.lanes - r.lane.toNat) % r.width.lanes)
      acc :=
        r.acc + (r.wbuf ||| BitVec.ofNat 32 (0x58585858 % 2 ^ (8 * ((r.width.lanes - r.lane.toNat) % r.width.lanes))))
      wbuf := 0 } := by
  have hne : r.lane.toNat ≠ 0 := fun e => hz (BitVec.eq_of_toNat_eq e)
  obtain ⟨n, hn⟩ := Nat.exists_eq_add_of_lt h
  have hmod : (r.width.lanes - r.lane.toNat) % r.width.lanes = n + 1 := by rw [Nat.mod_eq_of_lt] <;> omega
  rw [r.pad_eq_assembleMany h, hmod, r.assembleMany_fill n hn.symm]

/-- RESULT is ACC mod 2^W as a register value (41_commands.md R147). -/
theorem Width.and_mask_eq (w : Width) (a : Word) : a &&& w.mask = BitVec.ofNat 32 (a.toNat % 2 ^ w.bits) := by
  rw [← w.and_mask_toNat, BitVec.ofNat_toNat, BitVec.setWidth_eq]

/-! ### The words of a computation -/

/-- A PUSH that has room takes the registers of S to those of S and its byte (41_commands.md R144). -/
theorem regsAfterPushes_push (m : Word) (w : Width) (S : List Byte) (b : Byte) (h : S.length < m.toNat) :
    (regsAfterPushes m w S).afterWord (Line.push b).toWord = regsAfterPushes m w (S ++ [b]) := by
  have hcount := regsAfterPushes_count w h.le
  rw [Regs.afterWord_of_legal (decode_push_line b), Regs.afterInstr_push_of_room b rfl (hcount.trans_lt h),
    regsAfterPushes_assemble]

/-- The pushes of T take the registers of S to those of S and T, where there is room for all (41_commands.md R144). -/
theorem foldl_pushes (m : Word) (w : Width) (S T : List Byte) (h : (S ++ T).length ≤ m.toNat) :
    ((pushs T).map Line.toWord).foldl (fun r v => r.afterWord v) (regsAfterPushes m w S) =
      regsAfterPushes m w (S ++ T) := by
  induction T generalizing S with
  | nil => rw [List.append_nil]; rfl
  | cons b T ih =>
    have hroom : S.length < m.toNat := by simp at h; omega
    rw [pushs, List.map_cons, List.map_cons, List.foldl_cons, regsAfterPushes_push m w S b hroom, ← pushs,
      ih _ (by simpa using h), List.append_assoc, List.singleton_append]

/-- START, the pushes of at most MAX_LEN bytes and FINAL leave the registers of the completed checksum, whatever was in them
before (41_commands.md R160). -/
theorem foldl_computation (r : Regs) (w : Width) (S : List Byte) (h : S.length ≤ r.maxlen.toNat) :
    ((computation w S).map Line.toWord).foldl (fun r v => r.afterWord v) r = regsAfterFinal r.maxlen w S := by
  have hfinal : decode Line.final.toWord = .legal .final := (decode_final_iff _).2 rfl
  rw [computation, List.map_cons, List.foldl_cons, Regs.afterWord_start, r.init_eq_regsAfterPushes, List.map_append,
    List.foldl_append, foldl_pushes _ _ [] _ h, List.map_singleton, List.foldl_cons, List.foldl_nil,
    Regs.afterWord_of_legal hfinal, Regs.afterInstr_final_of_active rfl, List.nil_append, regsAfterPushes_final]

/-- A computation begins with START, so it takes nothing but MAXLEN from before (10_state.md R35). -/
theorem foldl_computation_congr (w : Width) (S : List Byte) {r₁ r₂ : Regs} (h : r₁.maxlen = r₂.maxlen) :
    ((computation w S).map Line.toWord).foldl (fun r v => r.afterWord v) r₁ =
      ((computation w S).map Line.toWord).foldl (fun r v => r.afterWord v) r₂ := by
  rw [computation, List.map_cons, List.foldl_cons, List.foldl_cons, Regs.afterWord_start, Regs.afterWord_start,
    Regs.init_congr w h]

theorem execWords_computation (s : State) (w : Width) (S : List Byte) (h : S.length ≤ s.regs.maxlen.toNat) :
    execWords ((computation w S).map Line.toWord) s = .next { s with regs := regsAfterFinal s.regs.maxlen w S } := by
  rw [execWords_eq, State.mapRegs, foldl_computation _ _ _ h]

/-- No sequence of words writes MAXLEN (10_state.md R32). -/
theorem foldl_afterWord_maxlen (vs : List Word) (r : Regs) :
    (vs.foldl (fun r v => r.afterWord v) r).maxlen = r.maxlen := by
  induction vs generalizing r with
  | nil => rfl
  | cons v vs ih => rw [List.foldl_cons, ih, Regs.afterWord_maxlen]

theorem padded_padded (w : Width) (S : List Byte) : padded w (padded w S) = padded w S := by
  rw [padded, padLen_padded, List.replicate_zero, List.append_nil]

/-- Padded bytes have the checksum of the bytes, and no padding of their own (41_commands.md R161). -/
theorem regsAfterFinal_padded (m : Word) (w : Width) (S : List Byte) :
    regsAfterFinal m w (padded w S) = { regsAfterFinal m w S with padcnt := 0 } := by
  simp only [regsAfterFinal, checksum, padded_padded, padLen_padded, BitVec.ofNat_eq_ofNat]

/-! ### The statements -/

/-- Settles O14: the padding in closed form, and ACC mod 2^W in RESULT. -/
theorem finalPadsAndLatches : Obligations.FinalPadsAndLatches := by
  refine ⟨(decode_final_iff _).2 rfl, fun s hl => ⟨_, _, rfl, rfl, ?_⟩⟩
  rw [exec_eq, State.mapRegs]
  split_ifs with he ha hz
  · rw [Regs.afterInstr_final_of_not_active (by simp [he]), Regs.raiseError_of_error _ _ he]
  · rw [Regs.afterInstr_final_of_not_active ha, Regs.raiseError_of_ne _ _ he]
  · rw [Regs.afterInstr_final_of_active (not_not.1 ha), Regs.latchResult, Width.and_mask_eq, s.regs.pad_of_lane_zero hz]
    simp [hz]
  · rw [Regs.afterInstr_final_of_active (not_not.1 ha), Regs.latchResult, Width.and_mask_eq,
      s.regs.pad_of_lane_ne_zero hl hz]

/-- Settles O22: RESULT is ACC with the mask, and outside a computation no command but START and CLEAR writes these values. -/
theorem latchedValuesStay : Obligations.LatchedValuesStay := by
  constructor
  · intro s t active h
    rw [exec_eq] at h
    cases h
    rw [State.mapRegs_regs, Regs.afterInstr_final_of_active active]
    exact Width.and_mask_toNat _ _
  · intro s t h hs hc
    rcases step_of_not_clears h hc with e | ⟨hstart, hclear, e⟩
    · rw [e]; exact ⟨rfl, rfl, rfl, rfl, rfl, hs⟩
    · have he := e ▸ s.regs.effect_afterWord s.nextPins.reqWdata
      exact he.latched_eq hs hstart hclear

/-- Settles O53: the registers at the end are those of the completed checksum, each number of which fits in its register. -/
theorem commandsComputeTheChecksum : Obligations.CommandsComputeTheChecksum := by
  intro s w S hm hS
  obtain ⟨hresult, hcount, hpadcnt⟩ := regsAfterFinal_toNat w hm hS
  exact ⟨_, execWords_computation s w S hS, rfl, rfl, rfl, rfl, hresult, hcount.trans (padded_length w S), hcount, hpadcnt,
    rfl, rfl, BitVec.toNat_ofNat _ _, rfl⟩

/-- Settles O55: a START leaves nothing of the first run but MAXLEN, which no word writes, and padding is idempotent. -/
theorem paddingFirstGivesTheSameResult : Obligations.PaddingFirstGivesTheSameResult := by
  intro s w S
  refine ⟨padded_padded w S, _, execWords_eq _ s, ?_, fun hroom => ?_⟩
  · rw [execWords_eq]
    simp only [State.mapRegs, foldl_computation_congr w S (foldl_afterWord_maxlen _ s.regs)]
  · have hS : S.length ≤ s.regs.maxlen.toNat := by rw [padded_length] at hroom; omega
    rw [execWords_computation _ _ _ hroom, regsAfterFinal_padded, State.mapRegs, foldl_computation _ _ _ hS]

/-- Settles O6: `exec` is the identity on NOP, and a word with OP = 0 is its own rest field. -/
theorem nopChangesNothing : Obligations.NopChangesNothing := by
  refine ⟨exec_eq .nop, (decode_nop_iff _).2 rfl, fun v hop hne => ?_⟩
  have hop0 : opField v = 0 := BitVec.eq_of_toNat_eq ((opField_toNat v).trans hop)
  have hrest : restField v ≠ 0 := by
    intro h
    have hlow : v.toNat % 2 ^ 28 = 0 := by rw [← restField_toNat, h]; rfl
    exact hne (BitVec.eq_of_toNat_eq (by rw [← Nat.div_add_mod v.toNat (2 ^ 28), hop, hlow]; rfl))
  rw [decode, if_pos hop0, if_neg hrest]

/-- Settles O7: START is `init` at the width of WSEL, and in ERROR the other commands do nothing or go to IDLE. -/
theorem startWritesEveryRegister : Obligations.StartWritesEveryRegister := by
  constructor
  · intro s wsel w h
    rw [Width.eq_wsel h]
    refine ⟨decode_start_line w, ?_⟩
    rw [exec_eq, State.mapRegs, Regs.afterInstr_start, Regs.init]
  · intro v s t h he ha
    rcases (effect_of_execWord h).of_error he with ⟨w, hd, -⟩ | ⟨-, hidle⟩ | hsame
    · exact ⟨w.wsel, hd⟩
    · rw [hidle] at ha; cases ha
    · rw [hsame, he] at ha; cases ha

/-- Settles O8: CLEAR is the reset values, and in ERROR the other commands do nothing or go to ACTIVE. -/
theorem clearGivesResetValues : Obligations.ClearGivesResetValues := by
  refine ⟨(decode_clear_iff _).2 rfl, exec_eq .clear, fun v s t h he hi => ?_⟩
  rcases (effect_of_execWord h).of_error he with ⟨w, -, hactive⟩ | ⟨hd, -⟩ | hsame
  · rw [hactive] at hi; cases hi
  · exact hd
  · rw [hsame, he] at hi; cases hi

/-- Settles O11: the checks in their order, and then the assembly step of O10. -/
theorem pushAssemblesTheByte : Obligations.PushAssemblesTheByte := by
  intro s b hl
  obtain ⟨word, hword, hlast, hnot⟩ := assembleTakesOneByte s.regs b hl
  refine ⟨word, hword, decode_push_line b, ?_⟩
  rw [exec_eq, State.mapRegs]
  split_ifs with he ha hfull hlane
  · rw [Regs.afterInstr_push_of_not_active b (by simp [he]), Regs.raiseError_of_error _ _ he]
  · rw [Regs.afterInstr_push_of_not_active b ha, Regs.raiseError_of_ne _ _ he]
  · rw [Regs.afterInstr_push_of_full b (not_not.1 ha) hfull, Regs.raiseError_of_ne _ _ he]
  · rw [Regs.afterInstr_push_of_room b (not_not.1 ha) (Nat.lt_of_not_le hfull), hlast hlane]
  · rw [Regs.afterInstr_push_of_room b (not_not.1 ha) (Nat.lt_of_not_le hfull), hnot hlane]

/-- Settles O19: a rejected command leaves its code or, in ERROR, nothing, and each other entry is its command's effect. -/
theorem everyWordFollowsTheTransitionTable : Obligations.EveryWordFollowsTheTransitionTable := by
  intro v s
  refine ⟨_, execWord_eq v s, ?_⟩
  cases hd : decode v with
  | illegalOpcode =>
    have hr : s.regs.afterWord v = s.regs.raiseError .illegalOpcode := by rw [Regs.afterWord, hd]
    cases hs : s.regs.state with
    | error => exact State.mapRegs_of_ignored hr hs
    | idle | active | done => exact State.mapRegs_of_rejected hr (by simp [hs])
  | illegalWidth =>
    have hr : s.regs.afterWord v = s.regs.raiseError .illegalWidth := by rw [Regs.afterWord, hd]
    cases hs : s.regs.state with
    | error => exact State.mapRegs_of_ignored hr hs
    | idle | active | done => exact State.mapRegs_of_rejected hr (by simp [hs])
  | legal i =>
    have hr := Regs.afterWord_of_legal hd s.regs
    cases i with
    | nop => exact State.mapRegs_of_eq hr
    | start wsel =>
      obtain ⟨w, hw⟩ := width_of_decoded_start v wsel hd
      rw [← Width.wsel_of_ofWsel hw, Regs.afterInstr_start] at hr
      rw [State.mapRegs_regs, hr]
      exact ⟨rfl, rfl⟩
    | clear =>
      rw [State.mapRegs_regs, hr]
      exact ⟨rfl, rfl⟩
    | push b =>
      have houtside (h : s.regs.state ≠ .active) := hr.trans (Regs.afterInstr_push_of_not_active b h)
      cases hs : s.regs.state with
      | error => exact State.mapRegs_of_ignored (houtside (by simp [hs])) hs
      | idle | done => exact State.mapRegs_of_rejected (houtside (by simp [hs])) (by simp [hs])
      | active =>
        dsimp only
        split_ifs with room
        · rw [State.mapRegs_regs, hr, Regs.afterInstr_push_of_room b hs room]
          exact ⟨(Regs.assemble_state b _).trans hs, Regs.assemble_ecode b _⟩
        · have hfull := hr.trans (Regs.afterInstr_push_of_full b hs (Nat.le_of_not_lt room))
          exact State.mapRegs_of_rejected hfull (by simp [hs])
    | final =>
      have houtside (h : s.regs.state ≠ .active) := hr.trans (Regs.afterInstr_final_of_not_active h)
      cases hs : s.regs.state with
      | error => exact State.mapRegs_of_ignored (houtside (by simp [hs])) hs
      | idle | done => exact State.mapRegs_of_rejected (houtside (by simp [hs])) (by simp [hs])
      | active =>
        rw [State.mapRegs_regs, hr, Regs.afterInstr_final_of_active hs]
        exact ⟨rfl, Regs.pad_ecode _⟩

end Sys2Proof.Machine
end

section
/-! PROOFS. Errors: a rejected command writes STATE and ECODE alone and is ignored in ERROR, START, CLEAR and reset alone leave
ERROR, and a block that is given no request waits (60_exceptions.md). -/

namespace Sys2Proof.Machine

/-! ### What a rejected command writes -/

/-- Outside ERROR a rejected command writes STATE and ECODE and nothing else of the machine (60_exceptions.md R180). -/
theorem State.mapRegs_eq_of_rejected {f : Regs → Regs} {c : ErrorCode} {s : State}
    (h : f s.regs = s.regs.raiseError c) (hne : s.regs.state ≠ .error) :
    s.mapRegs f = { s with regs := { s.regs with state := .error, ecode := c } } := by
  rw [State.mapRegs, h, Regs.raiseError_of_ne c _ hne]

/-- A word with no row in the opcode map (60_exceptions.md R182). -/
theorem Regs.afterWord_of_illegalOpcode {v : Word} (h : decode v = .illegalOpcode) (r : Regs) :
    r.afterWord v = r.raiseError .illegalOpcode := by
  rw [Regs.afterWord, h]

/-- The word of START with the reserved code (60_exceptions.md R183). -/
theorem Regs.afterWord_of_illegalWidth {v : Word} (h : decode v = .illegalWidth) (r : Regs) :
    r.afterWord v = r.raiseError .illegalWidth := by
  rw [Regs.afterWord, h]

/-- In ERROR an illegal word is ignored (60_exceptions.md R187). -/
theorem execWord_illegal_of_error {v : Word} {s : State} (he : s.regs.state = .error)
    (h : decode v = .illegalOpcode ∨ decode v = .illegalWidth) : execWord v s = .next s := by
  rw [execWord_eq]
  rcases h with h | h
  · rw [State.mapRegs_of_ignored (Regs.afterWord_of_illegalOpcode h _) he]
  · rw [State.mapRegs_of_ignored (Regs.afterWord_of_illegalWidth h _) he]

/-! ### Entry into ERROR -/

/-- The codes of the errors (60_exceptions.md R181). -/
theorem ErrorCode.code_bounds {c : ErrorCode} (h : c ≠ .noError) : 1 ≤ c.code.toNat ∧ c.code.toNat ≤ 4 := by
  cases c with
  | noError => exact absurd rfl h
  | illegalOpcode | illegalWidth | sequence | lengthOverflow => decide

/-- A command that enters ERROR was rejected, and writes STATE and ECODE alone (60_exceptions.md R189). -/
theorem Regs.Effect.error_entry {r r' : Regs} {k : CommandClass} (h : r.Effect k r') (hne : r.state ≠ .error)
    (he : r'.state = .error) : r'.ecode ≠ .noError ∧ r' = { r with state := .error, ecode := r'.ecode } := by
  cases h with
  | reject _ c hc => rw [Regs.raiseError_of_ne c r hne]; exact ⟨hc, rfl⟩
  | nop => exact absurd he hne
  | push b => exact absurd ((r.assemble_state b).symm.trans he) hne
  | start | final | clear => cases he

/-! ### Waiting for a request -/

/-- What holds of all samples to come and of a quiet host holds at the next edge. -/
theorem State.nextPins_of_forall {P : Pins → Prop} {s : State} (hquiet : P Pins.quiet) (h : ∀ p ∈ s.pins, P p) :
    P s.nextPins := by
  cases hp : s.pins with
  | nil => rwa [s.nextPins_nil hp]
  | cons p rest => rw [s.nextPins_cons p rest hp]; exact h p (by simp [hp])

/-- While no request is presented and `rst_n` stays 1, each edge of a ready block uses up one sample of the pins and nothing
else changes (60_exceptions.md R197). -/
theorem runEdges_ready (n : Nat) (s : State) (hp : s.port = .ready)
    (h : ∀ p ∈ s.pins, p.rstN = true ∧ p.reqValid = false) :
    runEdges n s = .next { s with pins := s.pins.drop n, freeIndex := s.freeIndex + n } := by
  induction n generalizing s with
  | zero => rfl
  | succ n ih =>
    obtain ⟨hr, hv⟩ := s.nextPins_of_forall (P := fun p => p.rstN = true ∧ p.reqValid = false) ⟨rfl, rfl⟩ h
    have hs : step s = .next s.sampled := clockEdge_wait s.nextPins s.sampled hr hp hv
    rw [runEdges_succ _ _ _ hs, ih s.sampled hp fun p hm => h p (List.mem_of_mem_tail hm)]
    simp [State.sampled, Nat.add_assoc, Nat.add_comm 1 n]

/-! ### The statements -/

/-- Settles O20: of all that a command can do only a rejection enters ERROR, and it writes an error's code. -/
theorem errorEntryIsPrecise : Obligations.ErrorEntryIsPrecise := by
  intro v s t h hne he
  obtain ⟨hc, hregs⟩ := (effect_of_execWord h).error_entry hne he
  rw [execWord_eq] at h
  cases h
  exact ⟨congrArg (fun r => { s with regs := r }) hregs, ErrorCode.code_bounds hc⟩

/-- Settles O35, by the state after `n` edges, which keeps the registers and the port. -/
theorem readyBlockWaits : Obligations.ReadyBlockWaits := fun s hp h n =>
  ⟨_, runEdges_ready n s hp h, rfl, hp⟩

/-- Settles O38: a step resets, runs a word, or keeps the registers, and in ERROR a word that is no START and no CLEAR
changes nothing. -/
theorem onlyStartClearResetLeaveError : Obligations.OnlyStartClearResetLeaveError := by
  intro s t h he hne
  rcases step_regs h with ⟨hr, e⟩ | ⟨-, hp, hv, hw, ha, e⟩ | e
  · exact .inl ⟨hr, by rw [e]; rfl⟩
  · refine .inr ⟨hp, hv, hw, ha, ?_⟩
    have heffect := e ▸ s.regs.effect_afterWord s.nextPins.reqWdata
    rcases heffect.of_error he with ⟨w, hd, hactive⟩ | hclear | hsame
    · exact .inl ⟨w.wsel, hd, hactive⟩
    · exact .inr hclear
    · exact absurd (hsame ▸ he) hne
  · exact absurd (e ▸ he) hne

/-- Settles O12: PUSH and FINAL outside ACTIVE raise SEQUENCE, which in ERROR changes nothing. -/
theorem pushAndFinalOutsideComputationRaiseSequence : Obligations.PushAndFinalOutsideComputationRaiseSequence := by
  intro s b
  rw [exec_eq, exec_eq]
  have hpush (h : s.regs.state ≠ .active) := Regs.afterInstr_push_of_not_active b h
  have hfinal (h : s.regs.state ≠ .active) := Regs.afterInstr_final_of_not_active h
  constructor
  · intro hs
    have ha : s.regs.state ≠ .active := by rcases hs with hs | hs <;> simp [hs]
    have hne : s.regs.state ≠ .error := by rcases hs with hs | hs <;> simp [hs]
    rw [State.mapRegs_eq_of_rejected (hpush ha) hne, State.mapRegs_eq_of_rejected (hfinal ha) hne]
    exact ⟨rfl, rfl⟩
  · intro he
    have ha : s.regs.state ≠ .active := by simp [he]
    rw [State.mapRegs_of_ignored (hpush ha) he, State.mapRegs_of_ignored (hfinal ha) he]
    exact ⟨rfl, rfl⟩

/-- Settles O13: a PUSH that finds MAX_LEN bytes in raises LENGTH_OVERFLOW. -/
theorem pushPastMaxLenRaisesLengthOverflow : Obligations.PushPastMaxLenRaisesLengthOverflow := by
  intro s b active full
  rw [exec_eq, State.mapRegs_eq_of_rejected (Regs.afterInstr_push_of_full b active full) (by simp [active])]

/-- Settles O17: PUSH and FINAL by the ERROR half of O12, and an illegal word raises an error that is there already. -/
theorem errorStateIgnoresRejectedCommands : Obligations.ErrorStateIgnoresRejectedCommands := by
  intro s v b he
  obtain ⟨hpush, hfinal⟩ := (pushAndFinalOutsideComputationRaiseSequence s b).2 he
  exact ⟨hpush, hfinal, execWord_illegal_of_error he⟩

/-- Settles O18: an illegal word of either kind raises its own error. -/
theorem illegalWordRaisesItsError : Obligations.IllegalWordRaisesItsError := by
  intro s v
  refine ⟨fun hne h => ?_, fun hne h => ?_, execWord_illegal_of_error⟩
  · rw [execWord_eq, State.mapRegs_eq_of_rejected (Regs.afterWord_of_illegalOpcode h _) hne]
  · rw [execWord_eq, State.mapRegs_eq_of_rejected (Regs.afterWord_of_illegalWidth h _) hne]

end Sys2Proof.Machine
end

section
/-! PROOFS. Reset: a reset edge in any state, and the first edge after reset (70_reset_and_hazards.md R210 to R212). -/

namespace Sys2Proof.Machine

/-- A step uses up the first sample of the pins and one free value, and acts on that sample (20_memory.md R51). -/
theorem step_of_pins_cons {s : State} {p : Pins} {rest : List Pins} (hpins : s.pins = p :: rest) :
    step s = clockEdge p { s with pins := rest, freeIndex := s.freeIndex + 1 } := by
  rw [step, s.nextPins_cons p rest hpins, State.sampled, hpins, List.tail_cons]

/-- An edge with `rst_n` = 0 resets whatever the state, and drops a request in flight (70_reset_and_hazards.md R210, R211). -/
theorem step_of_reset {s : State} {p : Pins} {rest : List Pins} (hpins : s.pins = p :: rest) (hrst : p.rstN = false) :
    step s = .next
      { regs := Regs.reset s.regs.maxlen, port := .inReset, pins := rest, freeIndex := s.freeIndex + 1 } :=
  (step_of_pins_cons hpins).trans (clockEdge_reset p _ hrst)

/-- An edge with `rst_n` = 1 takes a block in reset to a ready one and changes no register (70_reset_and_hazards.md R212). -/
theorem step_of_inReset {s : State} {p : Pins} {rest : List Pins} (hpins : s.pins = p :: rest)
    (hport : s.port = .inReset) (hrst : p.rstN = true) :
    step s = .next { s with port := .ready, pins := rest, freeIndex := s.freeIndex + 1 } :=
  (step_of_pins_cons hpins).trans (clockEdge_inReset p _ hrst hport)

/-- Settles O29, by the whole state after a reset edge. -/
theorem resetEdgeResetsEverything : Obligations.ResetEdgeResetsEverything :=
  fun _ _ _ hpins hrst => ⟨_, step_of_reset hpins hrst, rfl, rfl⟩

/-- Settles O31, by the whole state after the edge. -/
theorem firstEdgeAfterResetMakesReady : Obligations.FirstEdgeAfterResetMakesReady :=
  fun _ _ _ hpins hport hrst => ⟨_, step_of_inReset hpins hport hrst, rfl, rfl, rfl, rfl⟩

end Sys2Proof.Machine
end

section
/-! PROOFS. The host's view: requests and their responses edge by edge (20_memory.md R52, R53), when a step stops, the command
lines and pseudo-commands of 30_encoding.md R90 and R91, and the remaining facts about errors, outputs and the reset state. -/

namespace Sys2Proof.Machine

/-! ### A transfer -/

/-- A request touches nothing but the registers (20_memory.md R53). -/
theorem perform_frame {req : Request} {s t : State} {resp : Response} (h : perform req s = .next (t, resp)) :
    t = { s with regs := t.regs } := by
  obtain ⟨r, resp', e, -⟩ := perform_total req s
  cases e.symm.trans h
  rfl

/-- A ready port takes the request of the pins, whatever else they carry (20_memory.md R52, R53). -/
theorem step_of_transfer {s t : State} {p : Pins} {rest : List Pins} {resp : Response} (hport : s.port = .ready)
    (hpins : s.pins = p :: rest) (hrst : p.rstN = true) (hvalid : p.reqValid = true)
    (h : perform p.request { s with pins := rest, freeIndex := s.freeIndex + 1 } = .next (t, resp)) :
    step s = .next (t.withPort (.busy (p.request.latency t.regs.padcnt - 1) resp)) := by
  rw [step_of_pins_cons hpins, ← transfer_eq _ _ _ _ h]
  exact clockEdge_transfer p _ hrst hport hvalid

/-- A write of CMD has the latency of its word (70_reset_and_hazards.md R218). -/
theorem Request.latency_command (v : Word) (p : BitVec 2) : (Request.command v).latency p = commandLatency v p :=
  if_pos ⟨rfl, rfl⟩

theorem perform_command_of_execWord {v : Word} {s t : State} (h : execWord v s = .next t) :
    perform (Request.command v) s = .next (t, Response.ack) := by
  rw [execWord_eq] at h
  cases h
  exact perform_command v s

/-- A ready port that is given a write of CMD runs its word and owes the acknowledgement (20_memory.md R58). -/
theorem step_of_command {s t : State} {p : Pins} {rest : List Pins} (hport : s.port = .ready)
    (hpins : s.pins = p :: rest) (hrst : p.rstN = true) (hvalid : p.reqValid = true) (hwrite : p.reqWrite = true)
    (haddr : p.reqAddr = 0x00)
    (h : execWord p.reqWdata { s with pins := rest, freeIndex := s.freeIndex + 1 } = .next t) :
    step s = .next (t.withPort (.busy (commandLatency p.reqWdata t.regs.padcnt - 1) Response.ack)) := by
  have hreq : p.request = Request.command p.reqWdata := by rw [Pins.request, hwrite, haddr]; rfl
  have hstep := step_of_transfer hport hpins hrst hvalid (hreq ▸ perform_command_of_execWord h)
  rwa [hreq, Request.latency_command] at hstep

theorem execWord_of_legal {v : Word} {i : Instr} (h : decode v = .legal i) (s : State) : execWord v s = exec i s := by
  rw [execWord, h]

/-- After the first reset `req_ready` is 1 in the ready state of the port alone (20_memory.md R52). -/
theorem State.port_eq_ready {s : State} (hready : (s.outPins true).reqReady = true) (hne : s.port ≠ .unreset) :
    s.port = .ready := by
  unfold State.outPins at hready
  cases hp : s.port with
  | ready => rfl
  | unreset => exact absurd hp hne
  | inReset | busy | responding => simp [hp] at hready

/-! ### The response -/

theorem runEdges_snoc {n : Nat} {s t u : State} (h : runEdges n s = .next t) (hs : step t = .next u) :
    runEdges (n + 1) s = .next u := by
  rw [runEdges_add n 1 s t h, runEdges_succ 0 t u hs, runEdges_zero]

/-- Once its last cycle is over, a response that is due is on the pins for one cycle, and then the port is ready again
(20_memory.md R53). -/
theorem runEdges_response {s : State} {n : Nat} {resp : Response} (hport : s.port = .busy n resp)
    (hpins : ∀ p ∈ s.pins, p.rstN = true) :
    runEdges (n + 1) s = .next
        { s with port := .responding resp, pins := s.pins.drop (n + 1), freeIndex := s.freeIndex + (n + 1) } ∧
      runEdges (n + 2) s = .next
        { s with port := .ready, pins := s.pins.drop (n + 2), freeIndex := s.freeIndex + (n + 2) } := by
  have hdrop (k : Nat) (u : State) (hu : u.pins = s.pins.drop k) : u.nextPins.rstN = true :=
    u.nextPins_rstN fun p hp => hpins p (List.mem_of_mem_drop (hu ▸ hp))
  have hbusy := runEdges_busy 0 n s resp (by rw [hport, Nat.zero_add]) hpins
  have hrespond := runEdges_snoc hbusy (clockEdge_respond _ _ resp (hdrop n _ rfl) rfl)
  simp only [State.withPort, State.sampled, List.tail_drop] at hrespond
  have hready := runEdges_snoc hrespond (clockEdge_answered _ _ resp (hdrop (n + 1) _ rfl) rfl)
  simp only [State.withPort, State.sampled, List.tail_drop] at hready
  exact ⟨hrespond, hready⟩

/-! ### One edge -/

theorem clockEdge_unreset {p : Pins} {s : State} (hrst : p.rstN = true) (hport : s.port = .unreset) :
    clockEdge p s = .refused .beforeFirstReset := by
  simp [clockEdge, hrst, hport]

/-- Every edge of a block that has been reset, and every reset edge, leads to a state of a block that has been reset
(70_reset_and_hazards.md R219). -/
theorem clockEdge_total (p : Pins) (s : State) (h : s.port ≠ .unreset ∨ p.rstN = false) :
    ∃ t, clockEdge p s = .next t ∧ t.port ≠ .unreset := by
  cases hrst : p.rstN with
  | false => exact ⟨_, clockEdge_reset p s hrst, by simp⟩
  | true =>
    cases hport : s.port with
    | unreset => simp [hport, hrst] at h
    | inReset => exact ⟨_, clockEdge_inReset p s hrst hport, by simp⟩
    | responding resp => exact ⟨_, clockEdge_answered p s resp hrst hport, by simp⟩
    | busy n resp =>
      cases n with
      | zero => exact ⟨_, clockEdge_respond p s resp hrst hport, by simp⟩
      | succ n => exact ⟨_, clockEdge_count p s n resp hrst hport, by simp⟩
    | ready =>
      cases hvalid : p.reqValid with
      | false => exact ⟨s, clockEdge_wait p s hrst hport hvalid, by simp [hport]⟩
      | true =>
        obtain ⟨r, resp, hq, -⟩ := perform_total p.request s
        exact ⟨_, (clockEdge_transfer p s hrst hport hvalid).trans (transfer_eq _ _ _ _ hq), by simp⟩

/-! ### Command lines and host programs -/

/-- The word of a command line decodes to the line's instruction (30_encoding.md R90). -/
theorem decode_line {l : Line} {i : Instr} (h : l.instr = some i) : decode l.toWord = .legal i := by
  cases l with
  | nop => cases h; exact (decode_nop_iff _).2 rfl
  | start w => cases h; exact decode_start_line w
  | push b => cases h; exact decode_push_line b
  | final => cases h; exact (decode_final_iff _).2 rfl
  | clear => cases h; exact (decode_clear_iff _).2 rfl
  | word v => cases h

/-- The writes of a sequence of command words are all acknowledged, and run the words in order (20_memory.md R58, R64). -/
theorem performAll_commands (vs : List Word) (s : State) :
    performAll (vs.map Request.command) s =
      .next (s.mapRegs fun r => vs.foldl (fun x v => x.afterWord v) r, List.replicate vs.length Response.ack) := by
  induction vs generalizing s with
  | nil => rfl
  | cons v vs ih => exact performAll_cons_next _ _ _ _ _ _ _ (perform_command v s) (ih _)

/-- `CKSUM` writes the words of its computation to CMD and then reads three registers (30_encoding.md R91). -/
theorem cksum_requests (w : Width) (S : List Byte) :
    (cksum w S).map HostOp.request =
      ((computation w S).map Line.toWord).map Request.command ++
        [⟨false, RegName.status.offset, 0⟩, ⟨false, RegName.result.offset, 0⟩, ⟨false, RegName.count.offset, 0⟩] := by
  simp [cksum, HostOp.request]

theorem computation_length (w : Width) (S : List Byte) : (computation w S).length = S.length + 2 := by
  simp [computation, pushs]

theorem performAll_reads (s : State) :
    performAll
        [⟨false, RegName.status.offset, 0⟩, ⟨false, RegName.result.offset, 0⟩, ⟨false, RegName.count.offset, 0⟩] s =
      .next (s, [⟨false, s.regs.status⟩, ⟨false, s.regs.result⟩, ⟨false, s.regs.count⟩]) :=
  rfl

/-- STATUS of a completed computation: DONE, the width and the padding count (10_state.md R33). -/
theorem regsAfterFinal_status (m : Word) (w : Width) (S : List Byte) :
    (regsAfterFinal m w S).status = BitVec.ofNat 32 (2 + 4 * w.wsel.toNat + 64 * padLen w S.length) := by
  have hwsel := w.wsel.isLt
  have hpad := padLen_lt w S.length
  have h4 := w.lanes_le_four
  apply BitVec.eq_of_toNat_eq
  rw [Regs.status_toNat]
  simp [regsAfterFinal, CtrlState.code, ErrorCode.code]
  omega

/-! ### The statements -/

/-- Settles O44: the reset values are those of no computation, and what a step does to the registers some command can do. -/
theorem everyStepKeepsHistory : Obligations.EveryStepKeepsHistory :=
  ⟨fun _ => .inl (.reset _), fun _ _ hh hs =>
    have ⟨_, he⟩ := step_effect hs
    he.history hh⟩

/-- Settles O36: the transfer leaves the port busy for the latency less the one edge, and then the response comes. -/
theorem everyTransferIsAnsweredOnce : Obligations.EveryTransferIsAnsweredOnce := by
  intro s t req rest resp hport hpins hrst hperform
  have hstep := step_of_transfer hport hpins rfl rfl hperform
  obtain ⟨n, hn⟩ : ∃ n, req.latency t.regs.padcnt = n + 1 := Nat.exists_eq_add_one.2 (req.latency_pos _)
  rw [Pins.request_present, hn, Nat.add_sub_cancel] at hstep
  have hhigh : ∀ p ∈ (t.withPort (.busy n resp)).pins, p.rstN = true := by
    rw [State.withPort_pins, perform_frame hperform]
    exact hrst
  obtain ⟨hrespond, hready⟩ := runEdges_response (State.withPort_port _ t) hhigh
  refine ⟨n + 1, hn.symm, Nat.le_add_left 1 n, fun j hj hjn => ?_, ?_, ?_⟩
  · obtain ⟨i, rfl⟩ := Nat.exists_eq_add_of_le' hj
    obtain ⟨left, rfl⟩ := Nat.exists_eq_add_of_le' (Nat.le_of_succ_le_succ hjn)
    exact ⟨_, (runEdges_succ i _ _ hstep).trans (runEdges_busy left i _ resp rfl hhigh), rfl, rfl, rfl⟩
  · exact ⟨_, (runEdges_succ (n + 1) _ _ hstep).trans hrespond, rfl, rfl⟩
  · exact ⟨_, (runEdges_succ (n + 2) _ _ hstep).trans hready, rfl, rfl, rfl⟩

/-- Settles O37: a step resets, runs a word, or keeps the registers. -/
theorem registersChangeOnlyByCommandOrReset : Obligations.RegistersChangeOnlyByCommandOrReset := by
  intro s t h hne
  rcases step_regs h with ⟨hr, -⟩ | ⟨-, hp, hv, hw, ha, e⟩ | e
  · exact .inl hr
  · exact .inr ⟨hp, hv, hw, ha, _, execWord_eq _ s, e⟩
  · exact absurd e hne

/-- Settles O40: the one refusal is that of the port before its first reset. -/
theorem stepStopsOnlyBeforeFirstReset : Obligations.StepStopsOnlyBeforeFirstReset := fun s =>
  ⟨fun ⟨hport, hrst⟩ => clockEdge_unreset (s := s.sampled) hrst hport, clockEdge_total s.nextPins s.sampled⟩

/-- Settles O54: the writes are acknowledged and leave the registers of the completed checksum, which the reads return. -/
theorem cksumProgramReadsTheChecksum : Obligations.CksumProgramReadsTheChecksum := by
  intro s w S _ hS
  have hwrites := performAll_commands ((computation w S).map Line.toWord) s
  rw [List.length_map, computation_length, State.mapRegs, foldl_computation _ _ _ hS] at hwrites
  rw [cksum_requests, ← regsAfterFinal_status s.regs.maxlen]
  exact ⟨_, performAll_append_next _ _ _ _ _ _ _ hwrites (performAll_reads _)⟩

/-- Settles O1, by the words of the command lines. -/
theorem namedWordsDecodeToTheirCommands : Obligations.NamedWordsDecodeToTheirCommands :=
  ⟨decode_line (l := .nop) rfl, decode_start_line .w8, decode_start_line .w16, decode_start_line .w32,
    decode_push_line 0x41, decode_push_line 0xFF, decode_line (l := .final) rfl, decode_line (l := .clear) rfl⟩

/-- Settles O5: a line's word decodes to its instruction, and so it is that instruction's own word. -/
theorem assemblerLinesDecodeToTheirInstruction : Obligations.AssemblerLinesDecodeToTheirInstruction := by
  intro l i h
  have hd := decode_line h
  exact ⟨((decode_legal_iff_encode _ i).1 hd).2, hd⟩

/-- Settles O9: the code 3 has no width, so START with it is rejected. -/
theorem startWithReservedCodeRaisesIllegalWidth : Obligations.StartWithReservedCodeRaisesIllegalWidth := by
  intro s
  have hreject : s.regs.afterInstr (.start 3) = s.regs.raiseError .illegalWidth := rfl
  rw [exec_eq]
  exact ⟨fun hne => congrArg _ (State.mapRegs_eq_of_rejected hreject hne),
    fun he => congrArg _ (State.mapRegs_of_ignored hreject he)⟩

/-- Settles O15: raising an error is what a rejected command does. -/
theorem raisingAnErrorWritesStateAndCode : Obligations.RaisingAnErrorWritesStateAndCode := fun _ _ =>
  ⟨State.mapRegs_of_ignored rfl, State.mapRegs_eq_of_rejected rfl⟩

/-- Settles O30, by the state of the port. -/
theorem outputsAreZeroDuringReset : Obligations.OutputsAreZeroDuringReset := by
  intro s hne
  unfold State.outPins
  cases hp : s.port with
  | unreset => exact absurd hp hne
  | inReset | ready | busy | responding => rfl

/-- Settles O32: the word of the write runs the instruction it decodes to. -/
theorem stepRunsTheDecodedCommand : Obligations.StepRunsTheDecodedCommand := by
  intro s t p rest i hport hpins hrst hvalid hwrite haddr hdecode hexec
  exact step_of_command hport hpins hrst hvalid hwrite haddr ((execWord_of_legal hdecode _).trans hexec)

/-- Settles O33: a placed word stands on the pins of a ready port. -/
theorem placedWordRunsAtTheNextStep : Obligations.PlacedWordRunsAtTheNextStep := by
  intro s t w hw h
  have hpins : (s.withFetchWord 32 w).pins = Pins.present (Request.command (BitVec.ofNat 32 w)) :: s.pins := by
    rw [State.withFetchWord, Nat.mod_eq_of_lt hw]
  exact step_of_command (p := Pins.present (Request.command (BitVec.ofNat 32 w))) rfl hpins rfl rfl rfl rfl h

/-- Settles O34: `req_ready` = 1 is a ready port, and every request can be performed. -/
theorem transferPerformsTheRequest : Obligations.TransferPerformsTheRequest := by
  intro s p rest hready hne hpins hrst hvalid
  obtain ⟨r, resp, hq, -⟩ := perform_total p.request { s with pins := rest, freeIndex := s.freeIndex + 1 }
  exact ⟨_, resp, _, hq, step_of_transfer (s.port_eq_ready hready hne) hpins hrst hvalid hq, rfl⟩

/-- Settles O41: the OPEN MAX_LEN is in its range. -/
theorem resetStateMeetsInvariant : Obligations.ResetStateMeetsInvariant := State.inv_reset []

/-- Settles O57: START takes nothing but MAXLEN from before, and CLEAR keeps MAXLEN. -/
theorem restartEqualsStart : Obligations.RestartEqualsStart := by
  intro s w
  refine ⟨_, ?_, execWords_cons (Line.start w).toWord [] s⟩
  have hmaxlen : (s.regs.afterWord Line.clear.toWord).maxlen = s.regs.maxlen := Regs.afterWord_maxlen _ _
  rw [restart, List.map_cons, List.map_singleton, execWords_eq]
  simp only [State.mapRegs, List.foldl_cons, List.foldl_nil, Regs.afterWord_start, Regs.init_congr w hmaxlen]

end Sys2Proof.Machine
end
